-- ==== Sys2Proof/Word.lean ====
section
/-! DEFINITION. Word.lean: the two sizes of data the FCU moves (R8, R13). -/

namespace Sys2Proof

/-- A host bus word, an operand register, a command word: 32 bits (R8). -/
abbrev Word := BitVec 32

/-- One byte of FRAME or FMTBUF (R13). -/
abbrev Byte := BitVec 8

end Sys2Proof
end

