-- ==== Sys2Proof/Config.lean ====
section
/-! DEFINITION. Config.lean: the free values, which the spec leaves open and no proof can evaluate. -/

namespace Sys2Proof.Config

/-- The free draws of R261 and 93_implementation_defined.md I1: what an operand register holds after a
RESET input. Draw n is a different, unconstrained word for every n; each RESET input uses eight of
them (log 2: safe). -/
opaque resetDraw : Nat → Word

end Sys2Proof.Config
end

