-- ==== Sys2Proof/Syntax.lean ====
section
/-! DEFINITION. Syntax.lean: the commands of the FCU, one constructor of `Instr` per row of
spec/opcode_table.json, and the operands they name. -/

namespace Sys2Proof

/-- An operand register index, R0..R7 (R22, R94). -/
abbrev Reg := Fin 8

/-- The integer types that TY selects (R93). -/
inductive IntTy where
  | s8 | u8 | s16 | u16 | s32 | u32
deriving DecidableEq, Repr

/-- The decimals that DEC selects (R93). -/
inductive Decimals where
  | zero | one
deriving DecidableEq, Repr

/-- A fixed-point type T = (w, s, d), one of the twelve of R7 (R12, R93). -/
structure FxTy where
  int : IntTy
  dec : Decimals
deriving DecidableEq, Repr

/-- The frame fields, in the order of their field index 0..7 (R64). -/
inductive Field where
  | tin | rhin | tout | rhout | cond | volt | fan | rpm
deriving DecidableEq, Repr

/-- The 26 commands of R95, with the operands their formats decode (R92). -/
inductive Instr where
  /-- R120, format N. -/
  | nop
  /-- R122, format DT. -/
  | inval (t : FxTy) (rd : Reg)
  /-- R123, format DAT. -/
  | fromRaw (t : FxTy) (rd ra : Reg)
  /-- R124, format DAT. -/
  | fromReal (t : FxTy) (rd ra : Reg)
  /-- R126, format DAT. -/
  | isValid (t : FxTy) (rd ra : Reg)
  /-- R130, format DABT. -/
  | add (t : FxTy) (rd ra rb : Reg)
  /-- R131, format DABT. -/
  | sub (t : FxTy) (rd ra rb : Reg)
  /-- R132, format DABT. -/
  | mul (t : FxTy) (rd ra rb : Reg)
  /-- R133, format DABT. -/
  | div (t : FxTy) (rd ra rb : Reg)
  /-- R138, format DABT. -/
  | cmpLt (t : FxTy) (rd ra rb : Reg)
  /-- R139, format DABT. -/
  | cmpLe (t : FxTy) (rd ra rb : Reg)
  /-- R140, format DABT. -/
  | cmpGt (t : FxTy) (rd ra rb : Reg)
  /-- R141, format DABT. -/
  | cmpGe (t : FxTy) (rd ra rb : Reg)
  /-- R142, format DABT. -/
  | cmpEq (t : FxTy) (rd ra rb : Reg)
  /-- R143, format DABT. -/
  | cmpNe (t : FxTy) (rd ra rb : Reg)
  /-- R146, format XF: `width` is IMM5, `left` is FL[0], `plus` is FL[1] (R94). -/
  | fmt (t : FxTy) (ra : Reg) (width : Fin 32) (left plus : Bool)
  /-- R161, format N. -/
  | fclr
  /-- R163, format N. -/
  | fseal
  /-- R164, format D. -/
  | fverify (rd : Reg)
  /-- R166, format FS. -/
  | fset (t : FxTy) (field : Field) (ra : Reg)
  /-- R169, format FG. -/
  | fget (t : FxTy) (rd : Reg) (field : Field)
  /-- R194, format D. -/
  | ppoll (rd : Reg)
  /-- R197, format D. -/
  | prate (rd : Reg)
  /-- R211, format C5. -/
  | classify (t : FxTy) (rd ra rb rc re : Reg)
  /-- R221, format AB. -/
  | ftick (t : FxTy) (ra rb : Reg)
  /-- R224, format N. -/
  | fpress
deriving DecidableEq, Repr

/-- The field layout every command word has (R91). A format reads some of the fields and ignores the
others (R92, R96). -/
structure CmdFields where
  op : BitVec 8
  rd : BitVec 3
  ra : BitVec 3
  rb : BitVec 3
  rc : BitVec 3
  re : BitVec 3
  ty : BitVec 3
  dec : BitVec 1
  imm5 : BitVec 5
deriving DecidableEq, Repr

/-- Why the decoder rejects a word: items 1 to 4 of R97. Items 5 and 6 (the COND field while COND_EN
is 0, a type that is not the field's) are checked by FSET and FGET themselves, as R166 and R169 write
them (log 7: safe, the item that fails is not observable, R248). -/
inductive IllegalReason where
  /-- R97 item 1. -/
  | reservedOpcode
  /-- R97 item 2. -/
  | reservedType
  /-- R97 item 3: FMT with IMM5 > 16. -/
  | formatWidth
  /-- R97 item 4: FSET or FGET with IMM5 > 7. -/
  | fieldIndex
deriving DecidableEq, Repr

end Sys2Proof
end

