-- ==== Sys2Proof/Machine/Layout.lean ====
section
/-! DEFINITION. Machine/Layout.lean: the fixed-point type descriptors of R12 and the frame layout of
R64: each field's type, byte count, presence, offset and cleared value. -/

namespace Sys2Proof

/-- A field placed in a word with its bit 0 at bit `lo`: the concatenation of R9, one field at a time. -/
def bitsAt {n : Nat} (lo : Nat) (v : BitVec n) : Word := v.setWidth 32 <<< lo

/-- The width w of an integer type, in bits (R93). -/
def IntTy.width : IntTy → Nat
  | .s8 | .u8 => 8
  | .s16 | .u16 => 16
  | .s32 | .u32 => 32

/-- The signedness s of an integer type (R93). -/
def IntTy.signed : IntTy → Bool
  | .s8 | .s16 | .s32 => true
  | .u8 | .u16 | .u32 => false

/-- 10^d, the scale of a fixed-point type (R7, R129). -/
def Decimals.scale : Decimals → Nat
  | .zero => 1
  | .one => 10

/-- The type FSET and FGET must name for a field (R64, R167). -/
def Field.ty : Field → FxTy
  | .tin | .tout | .volt => ⟨.s16, .one⟩
  | .rhin | .rhout => ⟨.s8, .zero⟩
  | .cond | .fan => ⟨.u8, .zero⟩
  | .rpm => ⟨.s32, .zero⟩

/-- How many bytes a field takes (R64). -/
def Field.size : Field → Nat
  | .tin | .tout | .volt => 2
  | .rhin | .rhout | .cond | .fan => 1
  | .rpm => 4

/-- The raw value FCLR gives a field: invalid, Unknown or false (R64, R161). -/
def Field.clearedRaw : Field → Word
  | .tin | .tout | .volt => 0x8000
  | .rhin | .rhout => 0x80
  | .cond | .fan => 0
  | .rpm => 0x80000000

/-- The offset of a field's first byte in the layout COND_EN selects (R64). COND is absent when
COND_EN = 0; FSET and FGET refuse it then, so the offset of that row is read by nothing. -/
def Field.offset (condEn : Bool) : Field → Nat
  | .tin => 0
  | .rhin => 2
  | .tout => 3
  | .rhout => 5
  | .cond => 6
  | .volt => if condEn then 7 else 6
  | .fan => if condEn then 9 else 8
  | .rpm => if condEn then 10 else 9

/-- The fields present in a layout, in serialization order (R64). -/
def presentFields (condEn : Bool) : List Field :=
  if condEn then [.tin, .rhin, .tout, .rhout, .cond, .volt, .fan, .rpm]
  else [.tin, .rhin, .tout, .rhout, .volt, .fan, .rpm]

/-- The low n bytes of a raw value, least significant byte first (R65, R67). -/
def littleEndian : Nat → Word → List Byte
  | 0, _ => []
  | n + 1, v => v.setWidth 8 :: littleEndian n (v >>> 8)

/-- FRAMELEN, the L of 42_frame.md: 15 bytes with the Condition field, 14 without (R30). -/
def layoutLen (condEn : Bool) : Nat := if condEn then 15 else 14

end Sys2Proof
end

