-- ==== Sys2Proof/WellFormed.lean ====
section
/-! DEFINITION. WellFormed.lean: which commands have a legal word in some layout of the frame (R97).
The one legality check that depends on the state, COND while COND_EN = 0 (item 5), is no part of it. -/

namespace Sys2Proof

/-- A command is well-formed when no check of R97 that reads the command alone rejects it: FMT's
minimum width is at most 16 (item 3), and FSET and FGET name their field's own type (item 6). -/
def Instr.wellFormed : Instr → Bool
  | .fmt _ _ width _ _ => decide (width.val ≤ 16)
  | .fset t field _ => decide (t = field.ty)
  | .fget t _ field => decide (t = field.ty)
  | _ => true

end Sys2Proof
end

