-- ==== Sys2Proof/Decode.lean ====
section
/-! DEFINITION. Decode.lean: the decoder of command words, total and rejecting by name (R90 to R98),
and the encoder, both over the one field layout of R91. -/

namespace Sys2Proof

/-- The fields of a command word (R91). -/
def CmdFields.ofWord (w : Word) : CmdFields where
  op := w.extractLsb' 24 8
  rd := w.extractLsb' 21 3
  ra := w.extractLsb' 18 3
  rb := w.extractLsb' 15 3
  rc := w.extractLsb' 12 3
  re := w.extractLsb' 9 3
  ty := w.extractLsb' 6 3
  dec := w.extractLsb' 5 1
  imm5 := w.extractLsb' 0 5

/-- The command word that has these fields (R91). -/
def CmdFields.toWord (f : CmdFields) : Word :=
  bitsAt 24 f.op ||| bitsAt 21 f.rd ||| bitsAt 18 f.ra ||| bitsAt 15 f.rb ||| bitsAt 12 f.rc |||
    bitsAt 9 f.re ||| bitsAt 6 f.ty ||| bitsAt 5 f.dec ||| bitsAt 0 f.imm5

/-- A 3-bit field as a register index: every value 0..7 is legal (R94). -/
def regOf (b : BitVec 3) : Reg := ⟨b.toNat, b.isLt⟩

/-- A register index as a 3-bit field (R94). -/
def regBits (r : Reg) : BitVec 3 := BitVec.ofFin r

/-- The flag field FL of FMT: LEFT is bit 0, PLUS is bit 1, bit 2 is unused (R94). -/
def flagBits (left plus : Bool) : BitVec 3 :=
  (BitVec.ofBool left).setWidth 3 ||| (BitVec.ofBool plus).setWidth 3 <<< 1

/-- The integer type of a TY code; 0b110 and 0b111 are reserved (R93). -/
def IntTy.ofCode (b : BitVec 3) : Option IntTy :=
  match b.toNat with
  | 0 => some .s8
  | 1 => some .u8
  | 2 => some .s16
  | 3 => some .u16
  | 4 => some .s32
  | 5 => some .u32
  | _ => none

/-- The TY code of an integer type (R93). -/
def IntTy.code : IntTy → BitVec 3
  | .s8 => 0
  | .u8 => 1
  | .s16 => 2
  | .u16 => 3
  | .s32 => 4
  | .u32 => 5

/-- The decimals of a DEC bit (R93). -/
def Decimals.ofBit (b : BitVec 1) : Decimals := if b = 0 then .zero else .one

/-- The DEC bit of the decimals (R93). -/
def Decimals.bit : Decimals → BitVec 1
  | .zero => 0
  | .one => 1

/-- The frame field of an index IMM5, 0..7 (R64, R94). -/
def Field.ofIndex (b : BitVec 5) : Option Field :=
  match b.toNat with
  | 0 => some .tin
  | 1 => some .rhin
  | 2 => some .tout
  | 3 => some .rhout
  | 4 => some .cond
  | 5 => some .volt
  | 6 => some .fan
  | 7 => some .rpm
  | _ => none

/-- The index of a frame field (R64). -/
def Field.index : Field → BitVec 5
  | .tin => 0
  | .rhin => 1
  | .tout => 2
  | .rhout => 3
  | .cond => 4
  | .volt => 5
  | .fan => 6
  | .rpm => 7

/-- A typed command: TY must not be reserved (R93, R97 item 2). -/
def typed (f : CmdFields) (k : FxTy → Except IllegalReason Instr) : Except IllegalReason Instr :=
  match IntTy.ofCode f.ty with
  | none => .error .reservedType
  | some t => k ⟨t, Decimals.ofBit f.dec⟩

/-- A command of format DABT (R92). -/
def decodeDABT (mk : FxTy → Reg → Reg → Reg → Instr) (f : CmdFields) : Except IllegalReason Instr :=
  typed f fun t => .ok (mk t (regOf f.rd) (regOf f.ra) (regOf f.rb))

/-- A command of format DAT (R92). -/
def decodeDAT (mk : FxTy → Reg → Reg → Instr) (f : CmdFields) : Except IllegalReason Instr :=
  typed f fun t => .ok (mk t (regOf f.rd) (regOf f.ra))

/-- FMT, format XF: W = IMM5 of at most 16, LEFT = bit 15, PLUS = bit 16, bit 17 ignored (R94, R97
item 3). -/
def decodeXF (f : CmdFields) : Except IllegalReason Instr :=
  typed f fun t =>
    if 16 < f.imm5.toNat then .error .formatWidth
    else .ok (.fmt t (regOf f.ra) ⟨f.imm5.toNat, f.imm5.isLt⟩ (f.rb.getLsbD 0) (f.rb.getLsbD 1))

/-- FSET and FGET, formats FS and FG: a field index of at most 7 (R97 item 4). -/
def decodeField (mk : FxTy → Field → Instr) (f : CmdFields) : Except IllegalReason Instr :=
  typed f fun t =>
    match Field.ofIndex f.imm5 with
    | none => .error .fieldIndex
    | some field => .ok (mk t field)

/-- The opcode map (R95), over the formats of R92. -/
def decodeFields (f : CmdFields) : Except IllegalReason Instr :=
  match f.op.toNat with
  | 0x00 => .ok .nop
  | 0x01 => typed f fun t => .ok (.inval t (regOf f.rd))
  | 0x02 => decodeDAT .fromRaw f
  | 0x03 => decodeDAT .fromReal f
  | 0x04 => decodeDAT .isValid f
  | 0x08 => decodeDABT .add f
  | 0x09 => decodeDABT .sub f
  | 0x0A => decodeDABT .mul f
  | 0x0B => decodeDABT .div f
  | 0x10 => decodeDABT .cmpLt f
  | 0x11 => decodeDABT .cmpLe f
  | 0x12 => decodeDABT .cmpGt f
  | 0x13 => decodeDABT .cmpGe f
  | 0x14 => decodeDABT .cmpEq f
  | 0x15 => decodeDABT .cmpNe f
  | 0x18 => decodeXF f
  | 0x20 => .ok .fclr
  | 0x21 => .ok .fseal
  | 0x22 => .ok (.fverify (regOf f.rd))
  | 0x23 => decodeField (fun t field => .fset t field (regOf f.ra)) f
  | 0x24 => decodeField (fun t field => .fget t (regOf f.rd) field) f
  | 0x30 => .ok (.ppoll (regOf f.rd))
  | 0x31 => .ok (.prate (regOf f.rd))
  | 0x38 => typed f fun t =>
      .ok (.classify t (regOf f.rd) (regOf f.ra) (regOf f.rb) (regOf f.rc) (regOf f.re))
  | 0x39 => typed f fun t => .ok (.ftick t (regOf f.ra) (regOf f.rb))
  | 0x3A => .ok .fpress
  | _ => .error .reservedOpcode

/-- The command of a word, or the reason R97 gives for rejecting it. -/
def decode (w : Word) : Except IllegalReason Instr := decodeFields (CmdFields.ofWord w)

/-- The fields of a word with this opcode and every other field 0: what software writes in fields a
format does not use (R96). -/
def CmdFields.blank (op : BitVec 8) : CmdFields where
  op := op
  rd := 0
  ra := 0
  rb := 0
  rc := 0
  re := 0
  ty := 0
  dec := 0
  imm5 := 0

/-- The same fields with TY and DEC naming the type (R93). -/
def CmdFields.withTy (f : CmdFields) (t : FxTy) : CmdFields :=
  { f with ty := t.int.code, dec := t.dec.bit }

/-- The fields of a command of format DAT (R92). -/
def fieldsDAT (op : BitVec 8) (t : FxTy) (rd ra : Reg) : CmdFields :=
  { (CmdFields.blank op).withTy t with rd := regBits rd, ra := regBits ra }

/-- The fields of a command of format DABT (R92). -/
def fieldsDABT (op : BitVec 8) (t : FxTy) (rd ra rb : Reg) : CmdFields :=
  { (CmdFields.blank op).withTy t with rd := regBits rd, ra := regBits ra, rb := regBits rb }

/-- The fields of a command of format D (R92). -/
def fieldsD (op : BitVec 8) (rd : Reg) : CmdFields :=
  { CmdFields.blank op with rd := regBits rd }

/-- The fields of a command's word, unused fields 0 (R91, R92, R95). -/
def encodeFields : Instr → CmdFields
  | .nop => .blank 0x00
  | .inval t rd => { (CmdFields.blank 0x01).withTy t with rd := regBits rd }
  | .fromRaw t rd ra => fieldsDAT 0x02 t rd ra
  | .fromReal t rd ra => fieldsDAT 0x03 t rd ra
  | .isValid t rd ra => fieldsDAT 0x04 t rd ra
  | .add t rd ra rb => fieldsDABT 0x08 t rd ra rb
  | .sub t rd ra rb => fieldsDABT 0x09 t rd ra rb
  | .mul t rd ra rb => fieldsDABT 0x0A t rd ra rb
  | .div t rd ra rb => fieldsDABT 0x0B t rd ra rb
  | .cmpLt t rd ra rb => fieldsDABT 0x10 t rd ra rb
  | .cmpLe t rd ra rb => fieldsDABT 0x11 t rd ra rb
  | .cmpGt t rd ra rb => fieldsDABT 0x12 t rd ra rb
  | .cmpGe t rd ra rb => fieldsDABT 0x13 t rd ra rb
  | .cmpEq t rd ra rb => fieldsDABT 0x14 t rd ra rb
  | .cmpNe t rd ra rb => fieldsDABT 0x15 t rd ra rb
  | .fmt t ra width left plus =>
    { (CmdFields.blank 0x18).withTy t with
      ra := regBits ra
      rb := flagBits left plus
      imm5 := BitVec.ofFin width }
  | .fclr => .blank 0x20
  | .fseal => .blank 0x21
  | .fverify rd => fieldsD 0x22 rd
  | .fset t field ra =>
    { (CmdFields.blank 0x23).withTy t with ra := regBits ra, imm5 := field.index }
  | .fget t rd field =>
    { (CmdFields.blank 0x24).withTy t with rd := regBits rd, imm5 := field.index }
  | .ppoll rd => fieldsD 0x30 rd
  | .prate rd => fieldsD 0x31 rd
  | .classify t rd ra rb rc re =>
    { fieldsDABT 0x38 t rd ra rb with rc := regBits rc, re := regBits re }
  | .ftick t ra rb =>
    { (CmdFields.blank 0x39).withTy t with ra := regBits ra, rb := regBits rb }
  | .fpress => .blank 0x3A

/-- The command word of a command (R91). -/
def encode (i : Instr) : Word := (encodeFields i).toWord

/-- A command word of the opcode table: the low nbits bits of w, numbered as R9 numbers them, every
bit above them 0. The FCU's command is one 32-bit word on the bus, so there is no byte order to undo. -/
def tableWord (nbits w : Nat) : Word := BitVec.ofNat 32 (w % 2 ^ nbits)

/-- The command the decoder reads from a word of the opcode table, none where it rejects the word. -/
def decodeTableWord (nbits w : Nat) : Option Instr :=
  match decode (tableWord nbits w) with
  | .ok i => some i
  | .error _ => none

/-- MOV rd, ra: the pseudo-instruction that copies a whole register (R101). -/
def Instr.mov (rd ra : Reg) : Instr := .fromRaw ⟨.u32, .zero⟩ rd ra

/-- FSET field, ra with no type: the assembler supplies the field's own (R101). -/
def Instr.fsetOwn (field : Field) (ra : Reg) : Instr := .fset field.ty field ra

/-- FGET rd, field with no type: the assembler supplies the field's own (R101). -/
def Instr.fgetOwn (rd : Reg) (field : Field) : Instr := .fget field.ty rd field

end Sys2Proof
end

