-- ==== Sys2Proof/Machine/Memory.lean ====
section
/-! DEFINITION. Machine/Memory.lean: the two byte arrays of the host register space, FMTBUF at offsets
0x70..0x7F and FRAME at 0x80..0x8F (R60, R61, R62), as one list of cells in canonical form (log 6). -/

namespace Sys2Proof.Machine

/-- CRC-8, one bit: the reflected polynomial is 0x8C (R14). -/
def crcBit (c : Byte) : Byte := if c.getLsbD 0 then (c >>> 1) ^^^ 0x8C else c >>> 1

/-- `crcBit` n times. -/
def crcBits : Nat → Byte → Byte
  | 0, c => c
  | n + 1, c => crcBits n (crcBit c)

/-- CRC-8, one byte: xor the byte in, then eight bits (R14). -/
def crcByte (c b : Byte) : Byte := crcBits 8 (c ^^^ b)

/-- The CRC-8 of a sequence of bytes: initial value 0, no final xor (R14). -/
def crc8 (bytes : List Byte) : Byte := bytes.foldl crcByte 0

/-- The bytes 0..L-2 that FCLR writes: each present field's cleared value, little-endian (R161). -/
def clearedFields (condEn : Bool) : List Byte :=
  (presentFields condEn).flatMap fun f => littleEndian f.size f.clearedRaw

/-- The sixteen bytes FCLR leaves in FRAME: the cleared fields, the complement of their CRC, and 0x00
from FRAMELEN on (R161). -/
def clearedFrame (condEn : Bool) : List Byte :=
  clearedFields condEn ++ [crc8 (clearedFields condEn) ^^^ 0xFF] ++
    List.replicate (16 - layoutLen condEn) 0

/-- The host offset of FMTBUF[0] (R62). -/
def fmtBase : Nat := 0x70

/-- The host offset of FRAME[0] (R62). -/
def frameBase : Nat := 0x80

/-- The byte arrays: (host offset, byte) pairs. -/
abbrev Memory := List Host.Cell

/-- What an unlisted offset reads as: the reset contents R260 gives, the cleared 15-byte frame for
FRAME and 0x00 for FMTBUF. -/
def Memory.resetByte (a : Nat) : Byte :=
  if frameBase ≤ a then (clearedFrame true).getD (a - frameBase) 0 else 0

/-- The byte at a host offset. -/
def Memory.read (m : Memory) (a : Nat) : Byte :=
  match m with
  | [] => Memory.resetByte a
  | (b, v) :: rest => if b = a then v else Memory.read rest a

/-- Put a cell before the first cell of a higher offset. -/
def Memory.insertCell (m : Memory) (a : Nat) (v : Byte) : Memory :=
  match m with
  | [] => [(a, v)]
  | (b, u) :: rest => if a < b then (a, v) :: (b, u) :: rest else (b, u) :: Memory.insertCell rest a v

/-- Write one byte. A byte equal to what an unlisted offset reads as is not listed. -/
def Memory.write (m : Memory) (a : Nat) (v : Byte) : Memory :=
  let others := m.filter fun c => c.1 != a
  if v = Memory.resetByte a then others else Memory.insertCell others a v

/-- Write consecutive bytes from an offset up. -/
def Memory.writeBytes (m : Memory) (a : Nat) : List Byte → Memory
  | [] => m
  | v :: rest => Memory.writeBytes (Memory.write m a v) (a + 1) rest

/-- The canonical form: offsets strictly rising, each inside the two arrays, no cell equal to what an
unlisted offset reads as. -/
abbrev Memory.wf (m : Memory) : Prop :=
  m.Pairwise (fun c d => c.1 < d.1) ∧
    ∀ c ∈ m, fmtBase ≤ c.1 ∧ c.1 < frameBase + 16 ∧ c.2 ≠ Memory.resetByte c.1

end Sys2Proof.Machine
end

