-- ==== Sys2Proof/Machine/State.lean ====
section
/-! DEFINITION. Machine/State.lean: the whole state of one FCU (R40), the inputs its agents present to
it (R20), the ways a step can stop, and the state after reset (R260). -/

namespace Sys2Proof.Machine

/-- One access on the host bus (R13, R20): the address is the 8-bit offset in the FCU's window (R60). -/
inductive HostAccess where
  /-- HostRead(a). -/
  | read (addr : BitVec 8)
  /-- HostWrite(a, v, be): bit j of `be` enables byte lane j. -/
  | write (addr : BitVec 8) (data : Word) (be : BitVec 4)
deriving DecidableEq, Repr

/-- What the four agents of R20 present to the FCU in one instant: at most one step of each (R247,
log 9). -/
structure Instant where
  /-- RESET is asserted. -/
  reset : Bool
  /-- The host's bus access, if it makes one. -/
  host : Option HostAccess
  /-- The level the rotation sensor presents on EDGE_IN, if it presents one. -/
  edge : Option Bool
  /-- A pulse on TICK. -/
  tick : Bool
deriving DecidableEq, Repr

/-- The state record of R40, field by field, and four fields of the model's own: `inputs`, `readData`,
`cmdWord` and `draws`. -/
structure State where
  /-- R0..R7 (R22). -/
  regs : Vector Word 8
  /-- STATUS.SEALED (R27, R31). -/
  frameSealed : Bool
  /-- STATUS.RATE_VALID (R27). -/
  rateValid : Bool
  /-- POWER, which is STATUS.POWER and FAN_OUT (R37). -/
  power : Bool
  /-- STATUS.ILL (R27, R241). -/
  ill : Bool
  /-- ERRCMD (R30). -/
  errCmd : Word
  /-- CTRL.COND_EN (R28). -/
  condEn : Bool
  /-- HOT_TH (R29). -/
  hotTh : Word
  /-- COLD_TH (R29). -/
  coldTh : Word
  /-- VMIN (R29). -/
  vmin : Word
  /-- EVAL_PERIOD, ms (R29). -/
  evalPeriod : Word
  /-- SAMPLE_MIN, ms (R29). -/
  sampleMin : Word
  /-- RPT_PERIOD, ms (R29). -/
  rptPeriod : BitVec 16
  /-- NOW_MS (R30, R190). -/
  nowMs : Word
  /-- EDGE_CNT, hidden (R35). -/
  edgeCnt : BitVec 16
  /-- EDGE_PREV, hidden (R36). -/
  edgePrev : Bool
  /-- LAST_SAMPLE (R30). -/
  lastSample : Word
  /-- RATE (R30). -/
  rate : Word
  /-- LAST_EVAL (R30). -/
  lastEval : Word
  /-- FORCE_REMAIN, ms (R30). -/
  forceRemain : Word
  /-- FORCE_TIER (R30, R39). -/
  forceTier : BitVec 3
  /-- FMTBUF and FRAME (R32, R33). -/
  mem : Memory
  /-- FMTLEN (R30). -/
  fmtLen : BitVec 5
  /-- The model's own: what the agents will present, soonest first (log 3). -/
  inputs : List Instant
  /-- The model's own: the word the latest HostRead returned (log 4). -/
  readData : Word
  /-- The model's own: the word of the latest command write, the `word` of R241 (log 5). -/
  cmdWord : Word
  /-- The model's own: how many free values have been drawn (log 2). -/
  draws : Nat
deriving DecidableEq, Repr

/-- The ways a step can fault: none. "No condition in this core is fatal/unrecoverable" (R240), every
host offset is defined (R61, R63), and IllegalCommand goes on with the next access (R241). Log 13:
safe. -/
inductive Fault where
deriving DecidableEq, Repr

/-- The ways a step can be refused. -/
inductive Refusal where
  /-- Raised by an arm of exec whose command has no meaning yet: no arm raises it. Safe: the machine
  stops. -/
  | notModelled (mnemonic : String)
deriving DecidableEq, Repr

/-- The state after RESET (R260). R0..R7 have no reset value in the spec (R261); this state names 0 for
them (log 1: DESIGN CHOICE, unsafe), and 0 and the empty list for the model's own fields. -/
def State.reset : State where
  regs := Vector.replicate 8 0
  frameSealed := false
  rateValid := false
  power := false
  ill := false
  errCmd := 0
  condEn := true
  hotTh := 50
  coldTh := 10
  vmin := 70
  evalPeriod := 30000
  sampleMin := 1000
  rptPeriod := 60000
  nowMs := 0
  edgeCnt := 0
  edgePrev := false
  lastSample := 0
  rate := 0
  lastEval := 0
  forceRemain := 0
  forceTier := 0
  mem := []
  fmtLen := 0
  inputs := []
  readData := 0
  cmdWord := 0
  draws := 0

end Sys2Proof.Machine
end

