-- ==== Sys2Proof/Machine/Operands.lean ====
section
/-! DEFINITION. Machine/Operands.lean: reading and writing fixed-point values in 32-bit containers
(R12, R21), the binary32 input of FROMREAL (R124, R125) and the text FMT produces (R145, R147). -/

namespace Sys2Proof

/-- The width w of a fixed-point type (R12). -/
def FxTy.width (t : FxTy) : Nat := t.int.width

/-- The least representable value, which is the invalid sentinel (R12, R21). -/
def FxTy.minT (t : FxTy) : Int := if t.int.signed then -2 ^ (t.width - 1) else 0

/-- The greatest representable value (R12). -/
def FxTy.maxT (t : FxTy) : Int := if t.int.signed then 2 ^ (t.width - 1) - 1 else 2 ^ t.width - 1

/-- val_T: a container read under a type; only its low w bits matter (R12). -/
def FxTy.val (t : FxTy) (r : Word) : Int :=
  if t.int.signed then (r.setWidth t.width).toInt else ((r.setWidth t.width).toNat : Int)

/-- valid_T (R12). -/
def FxTy.valid (t : FxTy) (x : Int) : Bool := x != t.minT

/-- canon_T: an integer written back to a container, sign- or zero-extended (R12, R24). -/
def FxTy.canon (t : FxTy) (x : Int) : Word :=
  if t.int.signed then (BitVec.ofInt t.width x).signExtend 32
  else (BitVec.ofInt t.width x).setWidth 32

/-- fit_T: an exact result, or the sentinel where it is no valid value of the type (R12, R128). -/
def FxTy.fit (t : FxTy) (z : Int) : Int := if t.minT < z ∧ z ≤ t.maxT then z else t.minT

/-- INV_T, the container of invalid (R12). -/
def FxTy.inv (t : FxTy) : Word := t.canon t.minT

/-- 10^d as an integer (R129). -/
def FxTy.scale (t : FxTy) : Int := (t.dec.scale : Int)

/-- An arithmetic result: INV_T for an invalid operand (R127), else the exact result through fit_T
(R128). -/
def FxTy.arith (t : FxTy) (a b : Int) (exact : Int) : Word :=
  if t.valid a && t.valid b then t.canon (t.fit exact) else t.inv

end Sys2Proof

namespace Sys2Proof.Machine

/-- f[30:23] = 0xFF: NaN or an infinity (R124). -/
def realIsSpecial (f : Word) : Bool := f.extractLsb' 23 8 == 0xFF

/-- The numerator and the denominator of |value32(f)|, for a pattern that is no NaN and no infinity
(R125). -/
def realMagnitude (f : Word) : Nat × Nat :=
  let e := (f.extractLsb' 23 8).toNat
  let m := (f.extractLsb' 0 23).toNat
  if e = 0 then (m, 2 ^ 149)
  else if 150 ≤ e then ((2 ^ 23 + m) * 2 ^ (e - 150), 1)
  else (2 ^ 23 + m, 2 ^ (150 - e))

/-- The integer nearest to value32(f) times a scale, ties away from zero (R124). It is
sign(q) * floor(|q| + 1/2) computed over the exact fraction (log 10). -/
def realRounded (scale : Nat) (f : Word) : Int :=
  let (num, den) := realMagnitude f
  let z := (2 * (num * scale) + den) / (2 * den)
  if f.msb then -(z : Int) else (z : Int)

/-- The container FROMREAL writes (R124). -/
def realContainer (t : FxTy) (f : Word) : Word :=
  if realIsSpecial f then t.inv else t.canon (t.fit (realRounded t.dec.scale f))

/-- The decimal digits of n, most significant first, no leading zeros, "0" for 0: the low `fuel` of
them. Ten digits hold every value of a 32-bit type. -/
def decimalDigits : Nat → Nat → List Nat
  | 0, _ => []
  | fuel + 1, n => if n < 10 then [n] else decimalDigits fuel (n / 10) ++ [n % 10]

/-- The ASCII code of a decimal digit. -/
def asciiDigit (d : Nat) : Byte := BitVec.ofNat 8 (0x30 + d)

/-- The digits of |x| with the decimal point where d = 1 puts it (R145). -/
def fmtDigits (dec : Decimals) (n : Nat) : List Byte :=
  let digits := (decimalDigits 10 n).map asciiDigit
  match dec with
  | .zero => digits
  | .one =>
    let digits := if digits.length < 2 then 0x30 :: digits else digits
    digits.take (digits.length - 1) ++ [0x2E] ++ digits.drop (digits.length - 1)

/-- The sign of a formatted value (R145). -/
def fmtSign (plus : Bool) (x : Int) : List Byte :=
  if x < 0 then [0x2D] else if plus then [0x2B] else []

/-- The text of a valid value (R145). -/
def validText (dec : Decimals) (x : Int) (width : Nat) (left plus : Bool) : List Byte :=
  let body := fmtSign plus x ++ fmtDigits dec x.natAbs
  let pad := List.replicate (width - body.length) 0x20
  if left then body ++ pad else pad ++ body

/-- The text of an invalid value: one question mark at least (R147). -/
def invalidText (width : Nat) : List Byte := List.replicate (max width 1) 0x3F

/-- The text FMT produces (R146). -/
def fmtText (t : FxTy) (x : Int) (width : Nat) (left plus : Bool) : List Byte :=
  if t.valid x then validText t.dec x width left plus else invalidText width

end Sys2Proof.Machine
end

