-- ==== Sys2Proof/Machine/Flags.lean ====
section
/-! DEFINITION. Machine/Flags.lean: boolean results (R24, R137) and the STATUS word (R27). The FCU has
no arithmetic flags (R26). -/

namespace Sys2Proof.Machine

/-- A boolean result: exactly 0 or 1 (R24). -/
def boolWord (b : Bool) : Word := if b then 1 else 0

/-- A comparison under a type: true when both sides are valid and the relation holds (R137, R144). -/
def compareUnder (t : FxTy) (rel : Int → Int → Bool) (a b : Int) : Bool :=
  t.valid a && t.valid b && rel a b

/-- LT of R137. -/
def ltUnder (t : FxTy) (a b : Int) : Bool := compareUnder t (fun x y => decide (x < y)) a b

/-- LE of R137. -/
def leUnder (t : FxTy) (a b : Int) : Bool := compareUnder t (fun x y => decide (x ≤ y)) a b

/-- GT of R137. -/
def gtUnder (t : FxTy) (a b : Int) : Bool := compareUnder t (fun x y => decide (y < x)) a b

/-- GE of R137. -/
def geUnder (t : FxTy) (a b : Int) : Bool := compareUnder t (fun x y => decide (y ≤ x)) a b

/-- EQ of R137. -/
def eqUnder (t : FxTy) (a b : Int) : Bool := compareUnder t (fun x y => decide (x = y)) a b

/-- NE of R137. -/
def neUnder (t : FxTy) (a b : Int) : Bool := compareUnder t (fun x y => decide (x ≠ y)) a b

/-- STATUS.FORCE, derived from FORCE_REMAIN (R27). -/
def State.force (s : State) : Bool := s.forceRemain != 0

/-- FAN_OUT, which equals POWER at all times (R37). -/
def State.fanOut (s : State) : Bool := s.power

/-- The word a host read of STATUS returns (R27). -/
def State.statusWord (s : State) : Word :=
  bitsAt 8 (BitVec.ofBool s.ill) ||| bitsAt 3 (BitVec.ofBool s.force) |||
    bitsAt 2 (BitVec.ofBool s.power) ||| bitsAt 1 (BitVec.ofBool s.rateValid) |||
    bitsAt 0 (BitVec.ofBool s.frameSealed)

end Sys2Proof.Machine
end

