-- ==== Sys2Proof/Machine/Ops.lean ====
section
/-! DEFINITION. Machine/Ops.lean: the named operations over registers, frame, format buffer and timers
that the commands share, and the one exception (R241) with its acknowledgement (R27, R250). -/

namespace Sys2Proof.Machine

/-- R[i] (R10). -/
def State.reg (s : State) (r : Reg) : Word := s.regs[r.val]

/-- R[i] <- v (R10). No register is hard-wired (R22). -/
def State.setReg (s : State) (r : Reg) (v : Word) : State := { s with regs := s.regs.set r.val v }

/-- val_T(R[i]), the a, b of 41_fixed_point.md. -/
def State.fx (s : State) (t : FxTy) (r : Reg) : Int := t.val (s.reg r)

/-- FRAMELEN, derived from COND_EN (R30). -/
def State.frameLen (s : State) : Nat := layoutLen s.condEn

/-- FRAME[k] (R13). -/
def State.frameByte (s : State) (k : Nat) : Byte := s.mem.read (frameBase + k)

/-- FMTBUF[k] (R13). -/
def State.fmtByte (s : State) (k : Nat) : Byte := s.mem.read (fmtBase + k)

/-- crc8(FRAME[0..L-2]), the checksum range of R162. -/
def State.frameCrc (s : State) : Byte := crc8 ((List.range (s.frameLen - 1)).map s.frameByte)

/-- FRAME[k..] <- bytes, with the mark SEALED gets. -/
def State.putFrame (s : State) (k : Nat) (bytes : List Byte) (mark : Bool) : State :=
  { s with mem := s.mem.writeBytes (frameBase + k) bytes, frameSealed := mark }

/-- The effect of FCLR in the layout COND_EN selects (R161). -/
def State.clearFrame (s : State) : State := s.putFrame 0 (clearedFrame s.condEn) false

/-- FMTBUF[0..15] <- the text and zeros after it; FMTLEN <- its length (R146). -/
def State.putText (s : State) (text : List Byte) : State :=
  { s with
    mem := s.mem.writeBytes fmtBase ((List.range 16).map fun k => text.getD k 0)
    fmtLen := BitVec.ofNat 5 text.length }

/-- The 8n-bit value of consecutive FRAME bytes, little-endian (R65, R169). -/
def State.frameValue (s : State) (k : Nat) : Nat → Nat
  | 0 => 0
  | n + 1 => (s.frameByte k).toNat + 256 * State.frameValue s (k + 1) n

/-- elapsed(t): milliseconds since a stored time, modulo 2^32 (R192). -/
def State.elapsed (s : State) (t : Word) : Word := s.nowMs - t

/-- raise IllegalCommand(word): the FCU's one exception. STATUS.ILL and ERRCMD are written and nothing
else changes; there is no trap entry (R240, R241, R249). -/
def State.raiseIllegal (s : State) : State := { s with ill := true, errCmd := s.cmdWord }

/-- What stands in place of a return from the exception: the host's write of 1 to STATUS.ILL (R27,
R250). -/
def State.acknowledgeIllegal (s : State) : State := { s with ill := false }

/-- FSET and FGET raise IllegalCommand: the COND field while COND_EN is 0, or a type that is not the
field's (R97 items 5 and 6, R166, R169). -/
def State.fieldIllegal (s : State) (t : FxTy) (field : Field) : Bool :=
  (field == .cond && !s.condEn) || t != field.ty

end Sys2Proof.Machine
end

