-- ==== Sys2Proof/Machine/Fan.lean ====
section
/-! DEFINITION. Machine/Fan.lean: the commands of the CFU (45_condition_fan.md). -/

namespace Sys2Proof.Machine

/-- The condition code of four readings under two thresholds, first match wins (R211; codes: R38). -/
def conditionCode (t : FxTy) (hot cold tin tout vin vout : Int) : Word :=
  if !t.valid tin || !t.valid tout then 0
  else if gtUnder t tin hot && gtUnder t tout tin then 1
  else if ltUnder t tin cold && ltUnder t tout tin then 2
  else if !t.valid vin || !t.valid vout then 0
  else if leUnder t vin vout then 3
  else 4

/-- CLASSIFY (R211). -/
def execClassify (t : FxTy) (rd ra rb rc re : Reg) (s : State) : Host.Outcome State Fault Refusal :=
  .next (s.setReg rd (conditionCode t (t.val s.hotTh) (t.val s.coldTh)
    (s.fx t ra) (s.fx t rb) (s.fx t rc) (s.fx t re)))

/-- FTICK: the override, the unexpired timer, or a re-evaluation (R221). -/
def execFtick (t : FxTy) (ra rb : Reg) (s : State) : Host.Outcome State Fault Refusal :=
  if s.forceRemain ≠ 0 then .next { s with power := true }
  else if s.elapsed s.lastEval < s.evalPeriod then .next s
  else
    .next { s with
      power := s.reg ra == 4 && gtUnder t (s.fx t rb) (t.val s.vmin)
      lastEval := s.nowMs }

/-- LADDER_MS, the force-override ladder in milliseconds (R39). -/
def ladderMs : List Word := [0, 60000, 300000, 900000, 3600000, 7200000]

/-- FPRESS: one step up the ladder, and its full duration (R224). -/
def execFpress (s : State) : Host.Outcome State Fault Refusal :=
  let tier := (s.forceTier.toNat + 1) % 6
  .next { s with forceTier := BitVec.ofNat 3 tier, forceRemain := ladderMs.getD tier 0 }

end Sys2Proof.Machine
end

