-- ==== Sys2Proof/Machine/FixedPoint.lean ====
section
/-! DEFINITION. Machine/FixedPoint.lean: the commands of the FXU (41_fixed_point.md). -/

namespace Sys2Proof.Machine

/-- NOP (R120). -/
def execNop (s : State) : Host.Outcome State Fault Refusal := .next s

/-- INVAL (R122). -/
def execInval (t : FxTy) (rd : Reg) (s : State) : Host.Outcome State Fault Refusal :=
  .next (s.setReg rd t.inv)

/-- FROMRAW (R123). -/
def execFromRaw (t : FxTy) (rd ra : Reg) (s : State) : Host.Outcome State Fault Refusal :=
  .next (s.setReg rd (t.canon (s.fx t ra)))

/-- FROMREAL (R124). -/
def execFromReal (t : FxTy) (rd ra : Reg) (s : State) : Host.Outcome State Fault Refusal :=
  .next (s.setReg rd (realContainer t (s.reg ra)))

/-- ISVALID (R126). -/
def execIsValid (t : FxTy) (rd ra : Reg) (s : State) : Host.Outcome State Fault Refusal :=
  .next (s.setReg rd (boolWord (t.valid (s.fx t ra))))

/-- ADD (R130). -/
def execAdd (t : FxTy) (rd ra rb : Reg) (s : State) : Host.Outcome State Fault Refusal :=
  .next (s.setReg rd (t.arith (s.fx t ra) (s.fx t rb) (s.fx t ra + s.fx t rb)))

/-- SUB (R131). -/
def execSub (t : FxTy) (rd ra rb : Reg) (s : State) : Host.Outcome State Fault Refusal :=
  .next (s.setReg rd (t.arith (s.fx t ra) (s.fx t rb) (s.fx t ra - s.fx t rb)))

/-- MUL: the exact product, divided by 10^d toward zero (R129, R132). -/
def execMul (t : FxTy) (rd ra rb : Reg) (s : State) : Host.Outcome State Fault Refusal :=
  .next (s.setReg rd (t.arith (s.fx t ra) (s.fx t rb) ((s.fx t ra * s.fx t rb).tdiv t.scale)))

/-- DIV: the dividend times 10^d, divided toward zero; INV_T for a zero divisor (R129, R133). -/
def execDiv (t : FxTy) (rd ra rb : Reg) (s : State) : Host.Outcome State Fault Refusal :=
  .next (s.setReg rd
    (if s.fx t rb = 0 then t.inv
     else t.arith (s.fx t ra) (s.fx t rb) ((s.fx t ra * t.scale).tdiv (s.fx t rb))))

/-- CMPLT (R138). -/
def execCmpLt (t : FxTy) (rd ra rb : Reg) (s : State) : Host.Outcome State Fault Refusal :=
  .next (s.setReg rd (boolWord (ltUnder t (s.fx t ra) (s.fx t rb))))

/-- CMPLE (R139). -/
def execCmpLe (t : FxTy) (rd ra rb : Reg) (s : State) : Host.Outcome State Fault Refusal :=
  .next (s.setReg rd (boolWord (leUnder t (s.fx t ra) (s.fx t rb))))

/-- CMPGT (R140). -/
def execCmpGt (t : FxTy) (rd ra rb : Reg) (s : State) : Host.Outcome State Fault Refusal :=
  .next (s.setReg rd (boolWord (gtUnder t (s.fx t ra) (s.fx t rb))))

/-- CMPGE (R141). -/
def execCmpGe (t : FxTy) (rd ra rb : Reg) (s : State) : Host.Outcome State Fault Refusal :=
  .next (s.setReg rd (boolWord (geUnder t (s.fx t ra) (s.fx t rb))))

/-- CMPEQ (R142, R144). -/
def execCmpEq (t : FxTy) (rd ra rb : Reg) (s : State) : Host.Outcome State Fault Refusal :=
  .next (s.setReg rd (boolWord (eqUnder t (s.fx t ra) (s.fx t rb))))

/-- CMPNE (R143, R144). -/
def execCmpNe (t : FxTy) (rd ra rb : Reg) (s : State) : Host.Outcome State Fault Refusal :=
  .next (s.setReg rd (boolWord (neUnder t (s.fx t ra) (s.fx t rb))))

/-- FMT: IllegalCommand for a width over 16, else the text into FMTBUF (R146). -/
def execFmt (t : FxTy) (ra : Reg) (width : Fin 32) (left plus : Bool) (s : State) :
    Host.Outcome State Fault Refusal :=
  if 16 < width.val then .next s.raiseIllegal
  else .next (s.putText (fmtText t (s.fx t ra) width.val left plus))

end Sys2Proof.Machine
end

