-- ==== Sys2Proof/Machine/Frame.lean ====
section
/-! DEFINITION. Machine/Frame.lean: the commands of the FSU (42_frame.md). -/

namespace Sys2Proof.Machine

/-- FCLR (R161). -/
def execFclr (s : State) : Host.Outcome State Fault Refusal := .next s.clearFrame

/-- FSEAL (R163). -/
def execFseal (s : State) : Host.Outcome State Fault Refusal :=
  .next (s.putFrame (s.frameLen - 1) [s.frameCrc] true)

/-- FVERIFY: success leaves FRAME and marks it sealed, failure clears it (R164). -/
def execFverify (rd : Reg) (s : State) : Host.Outcome State Fault Refusal :=
  if s.frameCrc = s.frameByte (s.frameLen - 1) then .next ({ s with frameSealed := true }.setReg rd 1)
  else .next (s.clearFrame.setReg rd 0)

/-- The bytes FSET stores for a field: FAN normalised to 0x00 or 0x01, every other field's low bytes
little-endian (R166). -/
def fieldBytes (field : Field) (v : Word) : List Byte :=
  match field with
  | .fan => [if v.setWidth 8 = (0 : Byte) then 0x00 else 0x01]
  | f => littleEndian f.size v

/-- FSET (R166). -/
def execFset (t : FxTy) (field : Field) (ra : Reg) (s : State) : Host.Outcome State Fault Refusal :=
  if s.fieldIllegal t field then .next s.raiseIllegal
  else .next (s.putFrame (field.offset s.condEn) (fieldBytes field (s.reg ra)) false)

/-- The container FGET makes of a field's raw value: FAN as a boolean, COND zero-extended, a fixed-point
field canonical (R169). -/
def fieldContainer (t : FxTy) (field : Field) (raw : Nat) : Word :=
  match field with
  | .fan => if raw = 0 then 0 else 1
  | .cond => BitVec.ofNat 32 raw
  | _ => t.canon (t.val (BitVec.ofNat 32 raw))

/-- FGET (R169). -/
def execFget (t : FxTy) (rd : Reg) (field : Field) (s : State) : Host.Outcome State Fault Refusal :=
  if s.fieldIllegal t field then .next s.raiseIllegal
  else .next (s.setReg rd
    (fieldContainer t field (s.frameValue (field.offset s.condEn) field.size)))

end Sys2Proof.Machine
end

