-- ==== Sys2Proof/Machine/Pulse.lean ====
section
/-! DEFINITION. Machine/Pulse.lean: the commands of the PCU (43_pulse.md). -/

namespace Sys2Proof.Machine

/-- The rate of a window: count times period over elapsed, multiplied first (R195). -/
def pulseRate (count period : BitVec 16) (elapsed : Word) : Word :=
  BitVec.ofNat 32 (count.toNat * period.toNat / elapsed.toNat)

/-- PPOLL: the snapshot-and-reset of EDGE_CNT, or "no new sample" (R193, R194). -/
def execPpoll (rd : Reg) (s : State) : Host.Outcome State Fault Refusal :=
  let el := s.elapsed s.lastSample
  if el < s.sampleMin ∨ el = 0 then .next (s.setReg rd 0)
  else
    .next ({ s with
      edgeCnt := 0
      rate := pulseRate s.edgeCnt s.rptPeriod el
      rateValid := true
      lastSample := s.nowMs }.setReg rd 1)

/-- PRATE: the cached rate as an s32.0 value, invalid before the first sample or above 2^31 - 1
(R197). -/
def execPrate (rd : Reg) (s : State) : Host.Outcome State Fault Refusal :=
  .next (s.setReg rd (if s.rateValid ∧ s.rate ≤ 0x7FFFFFFF then s.rate else 0x80000000))

end Sys2Proof.Machine
end

