-- ==== Sys2Proof/Machine/Dispatch.lean ====
section
/-! DEFINITION. Machine/Dispatch.lean: each command's meaning, one arm a constructor (R95). -/

namespace Sys2Proof.Machine

def exec (i : Instr) (s : State) : Host.Outcome State Fault Refusal :=
  match i with
  | .nop => Sys2Proof.Machine.execNop s
  | .inval t rd => Sys2Proof.Machine.execInval t rd s
  | .fromRaw t rd ra => Sys2Proof.Machine.execFromRaw t rd ra s
  | .fromReal t rd ra => Sys2Proof.Machine.execFromReal t rd ra s
  | .isValid t rd ra => Sys2Proof.Machine.execIsValid t rd ra s
  | .add t rd ra rb => Sys2Proof.Machine.execAdd t rd ra rb s
  | .sub t rd ra rb => Sys2Proof.Machine.execSub t rd ra rb s
  | .mul t rd ra rb => Sys2Proof.Machine.execMul t rd ra rb s
  | .div t rd ra rb => Sys2Proof.Machine.execDiv t rd ra rb s
  | .cmpLt t rd ra rb => Sys2Proof.Machine.execCmpLt t rd ra rb s
  | .cmpLe t rd ra rb => Sys2Proof.Machine.execCmpLe t rd ra rb s
  | .cmpGt t rd ra rb => Sys2Proof.Machine.execCmpGt t rd ra rb s
  | .cmpGe t rd ra rb => Sys2Proof.Machine.execCmpGe t rd ra rb s
  | .cmpEq t rd ra rb => Sys2Proof.Machine.execCmpEq t rd ra rb s
  | .cmpNe t rd ra rb => Sys2Proof.Machine.execCmpNe t rd ra rb s
  | .fmt t ra width left plus => Sys2Proof.Machine.execFmt t ra width left plus s
  | .fclr => Sys2Proof.Machine.execFclr s
  | .fseal => Sys2Proof.Machine.execFseal s
  | .fverify rd => Sys2Proof.Machine.execFverify rd s
  | .fset t field ra => Sys2Proof.Machine.execFset t field ra s
  | .fget t rd field => Sys2Proof.Machine.execFget t rd field s
  | .ppoll rd => Sys2Proof.Machine.execPpoll rd s
  | .prate rd => Sys2Proof.Machine.execPrate rd s
  | .classify t rd ra rb rc re => Sys2Proof.Machine.execClassify t rd ra rb rc re s
  | .ftick t ra rb => Sys2Proof.Machine.execFtick t ra rb s
  | .fpress => Sys2Proof.Machine.execFpress s

end Sys2Proof.Machine
end

