-- ==== Sys2Proof/Machine/Bus.lean ====
section
/-! DEFINITION. Machine/Bus.lean: the steps of the four agents (R20): host reads and writes over the
register map (R61), the tick (R190, R225), the edge (R191), the reset (R260), and the order in which
coincident ones are taken (R247). -/

namespace Sys2Proof.Machine

/-- The names of the host register map (R61). -/
inductive HostReg where
  | cmd | status | errCmd | ctrl
  | operand (r : Reg)
  | nowMs | hotTh | coldTh | vmin | evalPeriod | sampleMin | rptPeriod
  | lastSample | rate | lastEval | forceRemain | forceTier | fmtLen | frameLen
  /-- Word q of FMTBUF. -/
  | fmtBuf (q : Fin 4)
  /-- Word q of FRAME. -/
  | frame (q : Fin 4)
  /-- A reserved offset (R63). -/
  | reserved
deriving DecidableEq, Repr

/-- The register an address names: bits 1:0 are ignored (R61, R68). -/
def hostReg (addr : BitVec 8) : HostReg :=
  match addr.toNat / 4 with
  | 0x00 => .cmd
  | 0x01 => .status
  | 0x02 => .errCmd
  | 0x03 => .ctrl
  | 0x04 => .operand 0
  | 0x05 => .operand 1
  | 0x06 => .operand 2
  | 0x07 => .operand 3
  | 0x08 => .operand 4
  | 0x09 => .operand 5
  | 0x0A => .operand 6
  | 0x0B => .operand 7
  | 0x0C => .nowMs
  | 0x0D => .hotTh
  | 0x0E => .coldTh
  | 0x0F => .vmin
  | 0x10 => .evalPeriod
  | 0x11 => .sampleMin
  | 0x12 => .rptPeriod
  | 0x14 => .lastSample
  | 0x15 => .rate
  | 0x16 => .lastEval
  | 0x17 => .forceRemain
  | 0x18 => .forceTier
  | 0x19 => .fmtLen
  | 0x1A => .frameLen
  | 0x1C => .fmtBuf 0
  | 0x1D => .fmtBuf 1
  | 0x1E => .fmtBuf 2
  | 0x1F => .fmtBuf 3
  | 0x20 => .frame 0
  | 0x21 => .frame 1
  | 0x22 => .frame 2
  | 0x23 => .frame 3
  | _ => .reserved

/-- FRAME[k] as the host sees it: 0x00 from FRAMELEN on (R62, log 11). -/
def State.hostFrameByte (s : State) (k : Nat) : Byte := if k < s.frameLen then s.frameByte k else 0

/-- A bus word of four byte lanes, lane 0 least significant (R62, R67). -/
def laneWord (lane : Nat → Byte) : Word :=
  bitsAt 24 (lane 3) ||| bitsAt 16 (lane 2) ||| bitsAt 8 (lane 1) ||| bitsAt 0 (lane 0)

/-- The word a host read of a register returns (R23, R27, R28, R29, R30, R61, R62, R63). -/
def State.readReg (s : State) : HostReg → Word
  | .cmd => 0
  | .status => s.statusWord
  | .errCmd => s.errCmd
  | .ctrl => boolWord s.condEn
  | .operand r => s.reg r
  | .nowMs => s.nowMs
  | .hotTh => s.hotTh
  | .coldTh => s.coldTh
  | .vmin => s.vmin
  | .evalPeriod => s.evalPeriod
  | .sampleMin => s.sampleMin
  | .rptPeriod => s.rptPeriod.setWidth 32
  | .lastSample => s.lastSample
  | .rate => s.rate
  | .lastEval => s.lastEval
  | .forceRemain => s.forceRemain
  | .forceTier => s.forceTier.setWidth 32
  | .fmtLen => s.fmtLen.setWidth 32
  | .frameLen => BitVec.ofNat 32 s.frameLen
  | .fmtBuf q => laneWord fun j => s.fmtByte (4 * q.val + j)
  | .frame q => laneWord fun j => s.hostFrameByte (4 * q.val + j)
  | .reserved => 0

/-- HostRead(a) (R13). -/
def State.hostRead (s : State) (addr : BitVec 8) : Word := s.readReg (hostReg addr)

/-- A write of CMD: the word is decoded and executed in this step, or IllegalCommand is raised
(R90, R97, R241). -/
def runCommand (word : Word) (s : State) : Host.Outcome State Fault Refusal :=
  match decode word with
  | .ok i => exec i { s with cmdWord := word }
  | .error _ => .next { s with cmdWord := word }.raiseIllegal

/-- A write of CTRL: only a change of COND_EN does anything, and it clears the frame in the new layout
(R28, R31, log 12). -/
def State.writeCtrl (s : State) (data : Word) : State :=
  if data.getLsbD 0 = s.condEn then s else { s with condEn := data.getLsbD 0 }.clearFrame

/-- A write of STATUS: bit 8 = 1 clears ILL, nothing else does anything (R27). -/
def State.writeStatus (s : State) (data : Word) : State :=
  if data.getLsbD 8 then s.acknowledgeIllegal else s

/-- One byte lane of a FRAME write: FRAME[k] where the lane is enabled and k < FRAMELEN; a byte written
clears SEALED (R62). -/
def State.writeLane (s : State) (k : Nat) (v : Byte) (enabled : Bool) : State :=
  if enabled = true ∧ k < s.frameLen then s.putFrame k [v] false else s

/-- A write of FRAME word q: each byte lane by itself (R62). -/
def State.writeFrameWord (s : State) (q : Nat) (data : Word) (be : BitVec 4) : State :=
  (((s.writeLane (4 * q) (data.extractLsb' 0 8) (be.getLsbD 0)).writeLane
    (4 * q + 1) (data.extractLsb' 8 8) (be.getLsbD 1)).writeLane
    (4 * q + 2) (data.extractLsb' 16 8) (be.getLsbD 2)).writeLane
    (4 * q + 3) (data.extractLsb' 24 8) (be.getLsbD 3)

/-- A write of a word register with all four byte enables, and of FRAME; read-only registers, FMTBUF
and reserved offsets ignore it (R23, R27 to R30, R61 to R63). -/
def State.writeReg (s : State) (r : HostReg) (data : Word) (be : BitVec 4) :
    Host.Outcome State Fault Refusal :=
  match r with
  | .cmd => runCommand data s
  | .status => .next (s.writeStatus data)
  | .ctrl => .next (s.writeCtrl data)
  | .operand i => .next (s.setReg i data)
  | .hotTh => .next { s with hotTh := data }
  | .coldTh => .next { s with coldTh := data }
  | .vmin => .next { s with vmin := data }
  | .evalPeriod => .next { s with evalPeriod := data }
  | .sampleMin => .next { s with sampleMin := data }
  | .rptPeriod => .next { s with rptPeriod := data.setWidth 16 }
  | .frame q => .next (s.writeFrameWord q.val data be)
  | .errCmd => .next s
  | .nowMs => .next s
  | .lastSample => .next s
  | .rate => .next s
  | .lastEval => .next s
  | .forceRemain => .next s
  | .forceTier => .next s
  | .fmtLen => .next s
  | .frameLen => .next s
  | .fmtBuf _ => .next s
  | .reserved => .next s

/-- A FRAME word honours each byte enable (R62, R69). -/
def HostReg.isFrame : HostReg → Bool
  | .frame _ => true
  | _ => false

/-- HostWrite(a, v, be): a word register ignores a write without all four byte enables, a FRAME word
honours each (R13, R69, R90). -/
def State.hostWrite (s : State) (addr : BitVec 8) (data : Word) (be : BitVec 4) :
    Host.Outcome State Fault Refusal :=
  if (hostReg addr).isFrame || be == 0xF then s.writeReg (hostReg addr) data be else .next s

/-- One step of the host agent (R20, R70). A read changes no FCU state (R69); the word it returns is
kept for the host (log 4). -/
def hostStep (access : HostAccess) (s : State) : Host.Outcome State Fault Refusal :=
  match access with
  | .read addr => .next { s with readData := s.hostRead addr }
  | .write addr data be => s.hostWrite addr data be

/-- The force-override countdown, part of every tick (R225). -/
def State.countDown (s : State) : State :=
  if s.forceRemain = 0 then s
  else
    { s with
      forceRemain := s.forceRemain - 1
      forceTier := if s.forceRemain = 1 then 0 else s.forceTier }

/-- One step of the time source (R190). -/
def State.tickStep (s : State) : State := { s.countDown with nowMs := s.nowMs + 1 }

/-- One step of the rotation sensor: a falling transition counts, saturating (R191). -/
def State.edgeStep (s : State) (level : Bool) : State :=
  { s with
    edgeCnt := if s.edgePrev && !level && s.edgeCnt != 0xFFFF then s.edgeCnt + 1 else s.edgeCnt
    edgePrev := level }

/-- One step of the reset source (R260). R0..R7 take free values (R261, log 2); the model's own fields
are no state of the FCU and stay (log 14). -/
def State.resetStep (s : State) : State :=
  { State.reset with
    regs := Vector.ofFn fun r : Fin 8 => Config.resetDraw (s.draws + r.val)
    inputs := s.inputs
    readData := s.readData
    cmdWord := s.cmdWord
    draws := s.draws + 8 }

/-- The edge and tick of an instant, in that order (R247 items 3 and 4). -/
def State.edgeAndTick (s : State) (i : Instant) : State :=
  let s := match i.edge with
    | none => s
    | some level => s.edgeStep level
  if i.tick then s.tickStep else s

/-- One instant: RESET alone; else the host's access, then the edge, then the tick (R247). -/
def runInstant (i : Instant) (s : State) : Host.Outcome State Fault Refusal :=
  if i.reset then .next s.resetStep
  else
    match i.host with
    | none => .next (s.edgeAndTick i)
    | some access =>
      match hostStep access s with
      | .next s' => .next (s'.edgeAndTick i)
      | .fault r => .fault r
      | .refused r => .refused r

/-- The instant in which the host writes a command word to CMD and nothing else happens (R90). -/
def commandInstant (word : Word) : Instant :=
  { reset := false, host := some (.write 0x00 word 0xF), edge := none, tick := false }

end Sys2Proof.Machine
end

