-- ==== Sys2Proof/Machine/Step.lean ====
section
/-! DEFINITION. Machine/Step.lean: one step of the machine, the next instant of its inputs (R20, R73,
R247), and where a command comes from (R25, R90). -/

namespace Sys2Proof.Machine

/-- One step: the next instant the agents present. With none presented the FCU waits and nothing changes
(R257, R262, log 3). -/
def step (s : State) : Host.Outcome State Fault Refusal :=
  match s.inputs with
  | [] => .next s
  | i :: rest => runInstant i { s with inputs := rest }

/-- The state in which the next instant is the host's write of this command word to CMD (log 3). -/
def State.withFetchWord (s : State) (nbits w : Nat) : State :=
  { s with inputs := commandInstant (tableWord nbits w) :: s.inputs }

end Sys2Proof.Machine
end

