-- ==== Sys2Proof/Safety.lean ====
section
/-! DEFINITION. Safety.lean: the terms statements are made in: what a command leaves unchanged, the
invariants of a safe state, the illegal words of R97 written from the rule's own list, the used fields
of R92, and the exact real value of a binary32 pattern. -/

namespace Sys2Proof

/-- The opcodes R95 assigns. -/
def assignedOpcodes : List Nat :=
  [0x00, 0x01, 0x02, 0x03, 0x04, 0x08, 0x09, 0x0A, 0x0B, 0x10, 0x11, 0x12, 0x13, 0x14, 0x15, 0x18,
    0x20, 0x21, 0x22, 0x23, 0x24, 0x30, 0x31, 0x38, 0x39, 0x3A]

/-- The opcodes of untyped commands, formats N and D (R92, R93). -/
def untypedOpcodes : List Nat := [0x00, 0x20, 0x21, 0x22, 0x30, 0x31, 0x3A]

/-- The (TY, DEC) codes of the fields 0..7 (R64, R167). -/
def fieldTypeCodes : List (Nat × Nat) :=
  [(2, 1), (0, 0), (2, 1), (0, 0), (1, 0), (2, 1), (1, 0), (4, 0)]

/-- A word is illegal: the six items of R97, from the bit positions of R91. -/
def illegalWord (condEn : Bool) (w : Word) : Bool :=
  let op := (w.extractLsb' 24 8).toNat
  let ty := (w.extractLsb' 6 3).toNat
  let dec := (w.extractLsb' 5 1).toNat
  let imm5 := (w.extractLsb' 0 5).toNat
  let onField := op == 0x23 || op == 0x24
  !assignedOpcodes.contains op ||
  (!untypedOpcodes.contains op && (ty == 6 || ty == 7)) ||
  (op == 0x18 && decide (16 < imm5)) ||
  (onField && decide (7 < imm5)) ||
  (onField && imm5 == 4 && !condEn) ||
  (onField && fieldTypeCodes[imm5]? != some (ty, dec))

/-- The bits of a word that its command decodes (R92; bit 17 of FMT is ignored, R94). For an opcode
R95 does not assign, the opcode. -/
def usedBits (op : Nat) : Word :=
  match op with
  | 0x01 => 0xFFE001E0
  | 0x02 | 0x03 | 0x04 => 0xFFFC01E0
  | 0x08 | 0x09 | 0x0A | 0x0B | 0x10 | 0x11 | 0x12 | 0x13 | 0x14 | 0x15 => 0xFFFF81E0
  | 0x18 => 0xFF1D81FF
  | 0x22 | 0x30 | 0x31 => 0xFFE00000
  | 0x23 => 0xFF1C01FF
  | 0x24 => 0xFFE001FF
  | 0x38 => 0xFFFFFFE0
  | 0x39 => 0xFF1F81E0
  | _ => 0xFF000000

/-- value32(f) for a pattern that is no NaN and no infinity (R125). -/
def binary32Value (f : Word) : ℚ :=
  let e := (f.extractLsb' 23 8).toNat
  let m := (f.extractLsb' 0 23).toNat
  (if f.msb then -1 else 1) *
    (if e = 0 then (m : ℚ) * 2 ^ (-149 : ℤ) else ((2 ^ 23 + m : ℕ) : ℚ) * 2 ^ ((e : ℤ) - 150))

/-- The integer nearest to a rational, ties away from zero: sign(q) * floor(|q| + 1/2) (R124). -/
def nearestAway (q : ℚ) : ℤ := if q < 0 then -⌊|q| + 1 / 2⌋ else ⌊|q| + 1 / 2⌋

/-- A word is the container R24 says a fixed-point result has: the sign or zero extension of its low w
bits. -/
def FxTy.canonical (t : FxTy) (r : Word) : Prop :=
  r = if t.int.signed then (r.setWidth t.width).signExtend 32 else (r.setWidth t.width).setWidth 32

namespace Machine

/-- Every byte of memory reads as before, outside `n` bytes from an offset up. -/
def sameOutside (base n : Nat) (s t : State) : Prop :=
  ∀ a, a < base ∨ base + n ≤ a → t.mem.read a = s.mem.read a

/-- The frame of a command that writes one operand register: every other register, every byte of memory
and every other piece of state is as before. -/
def changesOnlyReg (rd : Reg) (s t : State) : Prop :=
  (∀ r, r ≠ rd → t.reg r = s.reg r) ∧ (∀ a, t.mem.read a = s.mem.read a) ∧
    t = { s with regs := t.regs }

/-- The frame of a command that writes FRAME bytes and STATUS.SEALED and nothing else: every register,
every byte outside the stored ones and every other piece of state is as before. -/
def changesOnlyFrame (k n : Nat) (s t : State) : Prop :=
  (∀ r, t.reg r = s.reg r) ∧ sameOutside (frameBase + k) n s t ∧
    t = { s with mem := t.mem, frameSealed := t.frameSealed }

/-- FRAME holds these bytes, from FRAME[0] up. -/
def frameHolds (s : State) (bytes : List Byte) : Prop :=
  ∀ k, k < bytes.length → s.frameByte k = bytes.getD k 0

/-- The override invariant of R225, with the legal values of R30 and the duration of the tier. -/
def State.forceInv (s : State) : Prop :=
  s.forceTier.toNat ≤ 5 ∧ (s.forceRemain = 0 ↔ s.forceTier = 0) ∧
    s.forceRemain ≤ ladderMs.getD s.forceTier.toNat 0

/-- SEALED = 1 means that FRAME[L-1] is the CRC of the bytes before it (R31). -/
def State.sealInv (s : State) : Prop :=
  s.frameSealed = true → s.frameByte (s.frameLen - 1) = s.frameCrc

/-- Bytes FRAMELEN..15 of FRAME are 0x00 (R32). -/
def State.tailInv (s : State) : Prop := ∀ k, s.frameLen ≤ k → k < 16 → s.frameByte k = 0

/-- FMTLEN is at most 16, and FMTBUF holds 0x00 from it on (R30, R146). -/
def State.textInv (s : State) : Prop :=
  s.fmtLen.toNat ≤ 16 ∧ ∀ k, s.fmtLen.toNat ≤ k → k < 16 → s.fmtByte k = 0

/-- No rate is claimed before a sample (R197, R198): LAST_SAMPLE and RATE are still 0. -/
def State.rateInv (s : State) : Prop :=
  s.rateValid = false → s.rate = 0 ∧ s.lastSample = 0

/-- A safe state: the memory is canonical and every invariant above holds. -/
def State.safe (s : State) : Prop :=
  s.mem.wf ∧ s.forceInv ∧ s.sealInv ∧ s.tailInv ∧ s.textInv ∧ s.rateInv

/-- An instant in which only the host acts. -/
def hostInstant (access : HostAccess) : Instant :=
  { reset := false, host := some access, edge := none, tick := false }

/-- An instant in which only the rotation sensor acts. -/
def edgeInstant (level : Bool) : Instant :=
  { reset := false, host := none, edge := some level, tick := false }

/-- An instant in which only the time source acts. -/
def tickInstant : Instant := { reset := false, host := none, edge := none, tick := true }

/-- n steps of the machine, none where one of them faults or is refused. -/
def runSteps : Nat → State → Option State
  | 0, s => some s
  | n + 1, s =>
    match step s with
    | .next s' => runSteps n s'
    | .fault _ => none
    | .refused _ => none

end Machine

end Sys2Proof
end

