-- ==== Sys2Proof/Certificates/Slice0/Obligations.lean ====
section
/-! DEFINITION. Obligations.lean: the statements about the FCU, from the numbered rules of spec/. -/

open Sys2Proof Sys2Proof.Machine

/-! ### Encoding and decoding -/

/-- R91, R92, R93, R94, R95: every well-formed command, with every operand at every value its encoding
admits, is what the decoder reads from its word. -/
def Obligations.DecodeOfEncode : Prop :=
  ∀ i : Instr, i.wellFormed = true → decode (encode i) = .ok i

/-- R96: a field that a command's format does not use is ignored. Two words that agree on the bits
their command decodes are the same command, or are both rejected for the same reason. -/
def Obligations.UnusedFieldsIgnored : Prop :=
  ∀ w v : Word,
    w &&& usedBits (w.extractLsb' 24 8).toNat = v &&& usedBits (w.extractLsb' 24 8).toNat →
    decode v = decode w

/-- R97, R241: a command word is illegal exactly when one of the six items of R97 holds. An illegal word
sets ILL and ERRCMD and changes nothing else; a legal word runs its command and raises nothing.
(`cmdWord` is the model's own record of the word, log 5.) -/
def Obligations.IllegalCommandExactly : Prop :=
  ∀ (s : State) (w : Word),
    (illegalWord s.condEn w = true →
      runCommand w s = .next { s with cmdWord := w, ill := true, errCmd := w }) ∧
    (illegalWord s.condEn w = false →
      ∃ i t, decode w = .ok i ∧ runCommand w s = .next t ∧ exec i { s with cmdWord := w } = .next t ∧
        t.ill = s.ill ∧ t.errCmd = s.errCmd)

/-- R250: ILL stays 1 until a host write of 1 to STATUS bit 8 with all byte enables, which clears it (or
RESET, R260). An illegal word while ILL = 1 overwrites ERRCMD and leaves ILL = 1, and nothing but an
illegal word (or RESET) writes ERRCMD. -/
def Obligations.IllStaysUntilCleared : Prop :=
  (∀ (s t : State) (i : Instant) (rest : List Instant),
    s.inputs = i :: rest → step s = .next t → s.ill = true → i.reset = false →
    (∀ a v, i.host = some (.write a v 0xF) → hostReg a = .status → v.getLsbD 8 = false) →
    t.ill = true) ∧
  (∀ (s : State) (v : Word), v.getLsbD 8 = true →
    s.hostWrite 0x04 v 0xF = .next { s with ill := false }) ∧
  (∀ (s : State) (w : Word), s.ill = true → illegalWord s.condEn w = true →
    ∃ t, runCommand w s = .next t ∧ t.ill = true ∧ t.errCmd = w) ∧
  (∀ (s t : State) (i : Instant) (rest : List Instant),
    s.inputs = i :: rest → step s = .next t → i.reset = false →
    (∀ a w, i.host = some (.write a w 0xF) → hostReg a = .cmd → illegalWord s.condEn w = false) →
    t.errCmd = s.errCmd)

/-- R20, R70, R90: where the next instant is a host write alone, the step is that write; a full write to
CMD runs its word, legal or not; and where the word decodes, the step is the meaning of the decoded
command. An edge and a tick of the same instant come after it (R247). The model's own part: the command runs on the state with that instant taken from `inputs` (log 3) and its word
recorded in `cmdWord` (log 5), and `withFetchWord` puts such an instant first (log 3). -/
def Obligations.StepRunsDecodedCommand : Prop :=
  (∀ (s : State) (w : Word) (rest : List Instant) (i : Instr),
    s.inputs = commandInstant w :: rest → decode w = .ok i →
    step s = exec i { s with inputs := rest, cmdWord := w }) ∧
  (∀ (s : State) (w : Word) (i : Instr), decode w = .ok i →
    step (s.withFetchWord 32 w.toNat) = exec i { s with cmdWord := w }) ∧
  (∀ (s t : State) (w : Word) (e : Option Bool) (k : Bool) (rest : List Instant) (i : Instr),
    s.inputs = ⟨false, some (.write 0x00 w 0xF), e, k⟩ :: rest → decode w = .ok i →
    exec i { s with inputs := rest, cmdWord := w } = .next t →
    step s = .next (t.edgeAndTick ⟨false, some (.write 0x00 w 0xF), e, k⟩)) ∧
  (∀ (s : State) (a : BitVec 8) (v : Word) (be : BitVec 4) (rest : List Instant),
    s.inputs = hostInstant (.write a v be) :: rest →
    step s = { s with inputs := rest }.hostWrite a v be) ∧
  (∀ (s : State) (a : BitVec 8) (v : Word), a &&& 0xFC = 0x00 → s.hostWrite a v 0xF = runCommand v s)

/-- R93, R94, R95, R100: the example words of the assembler table decode to the commands they stand for,
and so do one word of each other opcode, one of each type code, FMT's LEFT, and one of each field index
(R64). -/
def Obligations.ManualWordsDecode : Prop :=
  decode 0x21000000 = .ok .fseal ∧
  decode 0x30C00000 = .ok (.ppoll 6) ∧
  decode 0x014000A0 = .ok (.inval ⟨.s16, .one⟩ 2) ∧
  decode 0x02280140 = .ok (.fromRaw ⟨.u32, .zero⟩ 1 2) ∧
  decode 0x086500A0 = .ok (.add ⟨.s16, .one⟩ 3 1 2) ∧
  decode 0x180500A6 = .ok (.fmt ⟨.s16, .one⟩ 1 6 false true) ∧
  decode 0x23140107 = .ok (.fset ⟨.s32, .zero⟩ .rpm 5) ∧
  decode 0x244000A2 = .ok (.fget ⟨.s16, .one⟩ 2 .tout) ∧
  decode 0x380538A0 = .ok (.classify ⟨.s16, .one⟩ 0 1 2 3 4) ∧
  decode 0x390280A0 = .ok (.ftick ⟨.s16, .one⟩ 0 5) ∧
  -- the other opcodes
  decode 0x00000000 = .ok .nop ∧
  decode 0x032800A0 = .ok (.fromReal ⟨.s16, .one⟩ 1 2) ∧
  decode 0x040400A0 = .ok (.isValid ⟨.s16, .one⟩ 0 1) ∧
  decode 0x096500A0 = .ok (.sub ⟨.s16, .one⟩ 3 1 2) ∧
  decode 0x0A6500A0 = .ok (.mul ⟨.s16, .one⟩ 3 1 2) ∧
  decode 0x0B6500A0 = .ok (.div ⟨.s16, .one⟩ 3 1 2) ∧
  decode 0x100500A0 = .ok (.cmpLt ⟨.s16, .one⟩ 0 1 2) ∧
  decode 0x110500A0 = .ok (.cmpLe ⟨.s16, .one⟩ 0 1 2) ∧
  decode 0x120500A0 = .ok (.cmpGt ⟨.s16, .one⟩ 0 1 2) ∧
  decode 0x130500A0 = .ok (.cmpGe ⟨.s16, .one⟩ 0 1 2) ∧
  decode 0x140500A0 = .ok (.cmpEq ⟨.s16, .one⟩ 0 1 2) ∧
  decode 0x150500A0 = .ok (.cmpNe ⟨.s16, .one⟩ 0 1 2) ∧
  decode 0x180480A6 = .ok (.fmt ⟨.s16, .one⟩ 1 6 true false) ∧
  decode 0x20000000 = .ok .fclr ∧
  decode 0x22600000 = .ok (.fverify 3) ∧
  decode 0x31A00000 = .ok (.prate 5) ∧
  decode 0x3A000000 = .ok .fpress ∧
  -- the six type codes
  decode 0x01000000 = .ok (.inval ⟨.s8, .zero⟩ 0) ∧
  decode 0x01000040 = .ok (.inval ⟨.u8, .zero⟩ 0) ∧
  decode 0x01000080 = .ok (.inval ⟨.s16, .zero⟩ 0) ∧
  decode 0x010000C0 = .ok (.inval ⟨.u16, .zero⟩ 0) ∧
  decode 0x01000100 = .ok (.inval ⟨.s32, .zero⟩ 0) ∧
  decode 0x01000140 = .ok (.inval ⟨.u32, .zero⟩ 0) ∧
  -- the eight field indices
  decode 0x230400A0 = .ok (.fset ⟨.s16, .one⟩ .tin 1) ∧
  decode 0x23080001 = .ok (.fset ⟨.s8, .zero⟩ .rhin 2) ∧
  decode 0x230C00A2 = .ok (.fset ⟨.s16, .one⟩ .tout 3) ∧
  decode 0x23100003 = .ok (.fset ⟨.s8, .zero⟩ .rhout 4) ∧
  decode 0x23140044 = .ok (.fset ⟨.u8, .zero⟩ .cond 5) ∧
  decode 0x231800A5 = .ok (.fset ⟨.s16, .one⟩ .volt 6) ∧
  decode 0x231C0046 = .ok (.fset ⟨.u8, .zero⟩ .fan 7)

/-! ### FXU -/

/-- R98, R120: the word 0x00000000, and every word with OP = 0x00, is NOP, and NOP changes nothing. -/
def Obligations.NopChangesNothing : Prop :=
  (∀ w : Word, w.extractLsb' 24 8 = 0 → decode w = .ok .nop) ∧
  (∀ s : State, exec .nop s = .next s)

/-- R122: INVAL writes the invalid container of its type, and nothing else. -/
def Obligations.InvalWritesSentinel : Prop :=
  ∀ (s : State) (t : FxTy) (rd : Reg), ∃ u, exec (.inval t rd) s = .next u ∧
    changesOnlyReg rd s u ∧
    u.reg rd = (match t.int with
      | .s8 => 0xFFFFFF80
      | .s16 => 0xFFFF8000
      | .s32 => 0x80000000
      | _ => 0)

/-- R123: FROMRAW writes the canonical container of the low w bits of its source, and nothing else; for
u32 that is the whole register, which is MOV. -/
def Obligations.FromRawTakesLowBits : Prop :=
  (∀ (s : State) (t : FxTy) (rd ra : Reg), ∃ u, exec (.fromRaw t rd ra) s = .next u ∧
    changesOnlyReg rd s u ∧ t.canonical (u.reg rd) ∧
    (u.reg rd).setWidth t.width = (s.reg ra).setWidth t.width) ∧
  (∀ (s : State) (rd ra : Reg), ∃ u, exec (Instr.mov rd ra) s = .next u ∧
    changesOnlyReg rd s u ∧ u.reg rd = s.reg ra)

/-- R124, R125: FROMREAL writes the nearest integer (ties away from zero) to the exact real value times
10^d, invalid outside (minT, maxT] and for NaN and infinities, and nothing else. -/
def Obligations.FromRealRoundsToNearest : Prop :=
  ∀ (s : State) (t : FxTy) (rd ra : Reg), ∃ u, exec (.fromReal t rd ra) s = .next u ∧
    changesOnlyReg rd s u ∧ t.canonical (u.reg rd) ∧
    ((s.reg ra).extractLsb' 23 8 = 0xFF → u.reg rd = t.inv) ∧
    ((s.reg ra).extractLsb' 23 8 ≠ 0xFF →
      t.val (u.reg rd) = t.fit (nearestAway (binary32Value (s.reg ra) * (t.dec.scale : ℚ))))

/-- R126: ISVALID writes 0 where the low w bits are the sentinel pattern and 1 otherwise, and nothing
else. -/
def Obligations.IsValidTestsSentinel : Prop :=
  ∀ (s : State) (t : FxTy) (rd ra : Reg), ∃ u, exec (.isValid t rd ra) s = .next u ∧
    changesOnlyReg rd s u ∧
    u.reg rd = if (s.reg ra).setWidth t.width =
      (if t.int.signed then BitVec.intMin t.width else 0) then 0 else 1

/-- R12, R21, R93, R128, R130, R131: ADD and SUB of valid operands write the exact sum and difference
where it is a valid value of the type, and invalid otherwise, and nothing else. The widths, sentinels and
greatest values are the table's, a value is the low w bits read with the type's sign, and `fit` keeps
the values in (minT, maxT] and makes every other minT. -/
def Obligations.AddSubExactOrInvalid : Prop :=
  (∀ t : FxTy, (t.int.signed, t.width, t.minT, t.maxT) = match t.int with
    | .s8 => (true, 8, -128, 127)
    | .u8 => (false, 8, 0, 255)
    | .s16 => (true, 16, -32768, 32767)
    | .u16 => (false, 16, 0, 65535)
    | .s32 => (true, 32, -2147483648, 2147483647)
    | .u32 => (false, 32, 0, 4294967295)) ∧
  (∀ (t : FxTy) (r : Word), t.val r =
    if t.int.signed then (r.setWidth t.width).toInt else ((r.setWidth t.width).toNat : Int)) ∧
  (∀ (t : FxTy) (z : Int), (t.minT < z → z ≤ t.maxT → t.fit z = z) ∧
    (z ≤ t.minT ∨ t.maxT < z → t.fit z = t.minT)) ∧
  ∀ (s : State) (t : FxTy) (rd ra rb : Reg),
    (∃ u, exec (.add t rd ra rb) s = .next u ∧ changesOnlyReg rd s u ∧ t.canonical (u.reg rd) ∧
      (t.val (s.reg ra) ≠ t.minT → t.val (s.reg rb) ≠ t.minT →
        t.val (u.reg rd) = t.fit (t.val (s.reg ra) + t.val (s.reg rb)))) ∧
    (∃ u, exec (.sub t rd ra rb) s = .next u ∧ changesOnlyReg rd s u ∧ t.canonical (u.reg rd) ∧
      (t.val (s.reg ra) ≠ t.minT → t.val (s.reg rb) ≠ t.minT →
        t.val (u.reg rd) = t.fit (t.val (s.reg ra) - t.val (s.reg rb))))

/-- R129, R132: MUL of valid operands writes the product over 10^d truncated toward zero, invalid where
it is no valid value, and nothing else. z is the truncated quotient: |z| is the floor of the quotient's
absolute value, and z never has the other sign. 10^d is 1 or 10 (R7). -/
def Obligations.MulTruncatesTowardZero : Prop :=
  Decimals.zero.scale = 1 ∧ Decimals.one.scale = 10 ∧
  ∀ (s : State) (t : FxTy) (rd ra rb : Reg), ∃ u, exec (.mul t rd ra rb) s = .next u ∧
    changesOnlyReg rd s u ∧ t.canonical (u.reg rd) ∧
    (t.val (s.reg ra) ≠ t.minT → t.val (s.reg rb) ≠ t.minT →
      ∃ z : Int, t.val (u.reg rd) = t.fit z ∧
        z.natAbs = (t.val (s.reg ra) * t.val (s.reg rb)).natAbs / t.dec.scale ∧
        0 ≤ z * (t.val (s.reg ra) * t.val (s.reg rb)))

/-- R129, R133: DIV of valid operands with a nonzero divisor writes the dividend times 10^d over the
divisor, truncated toward zero, invalid where it is no valid value; a zero divisor gives invalid. -/
def Obligations.DivTruncatesTowardZero : Prop :=
  ∀ (s : State) (t : FxTy) (rd ra rb : Reg), ∃ u, exec (.div t rd ra rb) s = .next u ∧
    changesOnlyReg rd s u ∧ t.canonical (u.reg rd) ∧
    (t.val (s.reg rb) = 0 → u.reg rd = t.inv) ∧
    (t.val (s.reg ra) ≠ t.minT → t.val (s.reg rb) ≠ t.minT → t.val (s.reg rb) ≠ 0 →
      ∃ z : Int, t.val (u.reg rd) = t.fit z ∧
        z.natAbs = (t.val (s.reg ra)).natAbs * t.dec.scale / (t.val (s.reg rb)).natAbs ∧
        0 ≤ z * (t.val (s.reg ra) * t.val (s.reg rb)))

/-- R127: for ADD, SUB, MUL and DIV, an invalid operand gives the invalid container. -/
def Obligations.InvalidOperandsPropagate : Prop :=
  ∀ (s : State) (t : FxTy) (rd ra rb : Reg),
    t.val (s.reg ra) = t.minT ∨ t.val (s.reg rb) = t.minT →
    ∀ i ∈ [Instr.add t rd ra rb, .sub t rd ra rb, .mul t rd ra rb, .div t rd ra rb],
      exec i s = .next (s.setReg rd t.inv)

/-- R137 to R144: a comparison writes 1 if both operands are valid and the relation holds, and 0
otherwise, and nothing else. -/
def Obligations.ComparisonsOfValidOnly : Prop :=
  ∀ (s : State) (t : FxTy) (rd ra rb : Reg),
    ∀ p ∈ [(Instr.cmpLt t rd ra rb, decide (t.val (s.reg ra) < t.val (s.reg rb))),
        (.cmpLe t rd ra rb, decide (t.val (s.reg ra) ≤ t.val (s.reg rb))),
        (.cmpGt t rd ra rb, decide (t.val (s.reg ra) > t.val (s.reg rb))),
        (.cmpGe t rd ra rb, decide (t.val (s.reg ra) ≥ t.val (s.reg rb))),
        (.cmpEq t rd ra rb, decide (t.val (s.reg ra) = t.val (s.reg rb))),
        (.cmpNe t rd ra rb, decide (t.val (s.reg ra) ≠ t.val (s.reg rb)))],
      ∃ u, exec p.1 s = .next u ∧ changesOnlyReg rd s u ∧
        (u.reg rd = 0 ∨ u.reg rd = 1) ∧
        (u.reg rd = 1 ↔
          t.val (s.reg ra) ≠ t.minT ∧ t.val (s.reg rb) ≠ t.minT ∧ p.2 = true)

/-- R12, 93 I16: the result of an arithmetic command or a comparison depends only on the low w bits of
its two sources: any two states whose sources agree there get the same destination. -/
def Obligations.UpperOperandBitsIgnored : Prop :=
  ∀ (s s' : State) (t : FxTy) (rd ra rb : Reg),
    (s.reg ra).setWidth t.width = (s'.reg ra).setWidth t.width →
    (s.reg rb).setWidth t.width = (s'.reg rb).setWidth t.width →
    ∀ mk ∈ [Instr.add t rd, .sub t rd, .mul t rd, .div t rd, .cmpLt t rd, .cmpLe t rd, .cmpGt t rd,
        .cmpGe t rd, .cmpEq t rd, .cmpNe t rd],
      ∃ u u', exec (mk ra rb) s = .next u ∧ exec (mk ra rb) s' = .next u' ∧ u.reg rd = u'.reg rd

/-- R146: FMT with a width of at most 16 writes its text, zeros after it, and the text's length, and
changes no register, no FRAME byte and nothing else. -/
def Obligations.FmtWritesText : Prop :=
  ∀ (s : State) (t : FxTy) (ra : Reg) (width : Fin 32) (left plus : Bool), width.val ≤ 16 →
    ∃ u, exec (.fmt t ra width left plus) s = .next u ∧
      (fmtText t (t.val (s.reg ra)) width.val left plus).length ≤ 16 ∧
      u.fmtLen.toNat = (fmtText t (t.val (s.reg ra)) width.val left plus).length ∧
      (∀ k, k < 16 →
        u.fmtByte k = (fmtText t (t.val (s.reg ra)) width.val left plus).getD k 0) ∧
      (∀ r, u.reg r = s.reg r) ∧ sameOutside fmtBase 16 s u ∧
      u = { s with mem := u.mem, fmtLen := u.fmtLen }

/-- R145: the text of a valid value is its sign, its digits and spaces up to the width. The sign is `-`
for a negative value, `+` for another with PLUS, and nothing otherwise. The digits are ASCII characters
that denote |x| in decimal with no leading zero, and with one decimal the point stands before the last
digit, after at least one integer digit. -/
def Obligations.ValidTextDenotesValue : Prop :=
  (∀ (t : FxTy) (x : Int) (width : Nat) (left plus : Bool), x ≠ t.minT →
    ∃ pad : List Byte, (∀ b ∈ pad, b = 0x20) ∧
      fmtText t x width left plus =
        (if left then fmtSign plus x ++ fmtDigits t.dec x.natAbs ++ pad
         else pad ++ (fmtSign plus x ++ fmtDigits t.dec x.natAbs)) ∧
      (fmtText t x width left plus).length =
        max width ((fmtSign plus x).length + (fmtDigits t.dec x.natAbs).length)) ∧
  (∀ (plus : Bool) (x : Int),
    (x < 0 → fmtSign plus x = [0x2D]) ∧
    (0 ≤ x → plus = true → fmtSign plus x = [0x2B]) ∧
    (0 ≤ x → plus = false → fmtSign plus x = [])) ∧
  (∀ d : Nat, d < 10 → (asciiDigit d).toNat = 0x30 + d) ∧
  (∀ n : Nat, n < 10 ^ 10 →
    fmtDigits .zero n = (decimalDigits 10 n).map asciiDigit ∧
    fmtDigits .one n = (decimalDigits 10 (n / 10)).map asciiDigit ++ [0x2E, asciiDigit (n % 10)] ∧
    (decimalDigits 10 n).foldl (fun v d => 10 * v + d) 0 = n ∧
    (∀ d ∈ decimalDigits 10 n, d < 10) ∧
    (0 < n → (decimalDigits 10 n).head? ≠ some 0) ∧ decimalDigits 10 0 = [0])

/-- R147: the text of an invalid value is `?` repeated max(W, 1) times; LEFT and PLUS have no effect. -/
def Obligations.InvalidTextIsPlaceholder : Prop :=
  ∀ (s : State) (t : FxTy) (ra : Reg) (width : Fin 32) (left plus : Bool), width.val ≤ 16 →
    t.val (s.reg ra) = t.minT →
    ∃ u, exec (.fmt t ra width left plus) s = .next u ∧ u.fmtLen.toNat = max width.val 1 ∧
      ∀ k, k < 16 → u.fmtByte k = if k < max width.val 1 then 0x3F else 0

/-- R146, R166, R169 with R97: FMT with a width over 16, and FSET and FGET of COND while COND_EN = 0 or
with a type that is not the field's, raise IllegalCommand: ILL and ERRCMD (the word under execution,
log 5) are written and nothing else. -/
def Obligations.IllegalFormsRaise : Prop :=
  (∀ (s : State) (t : FxTy) (ra : Reg) (width : Fin 32) (left plus : Bool), 16 < width.val →
    exec (.fmt t ra width left plus) s = .next { s with ill := true, errCmd := s.cmdWord }) ∧
  (∀ (s : State) (t : FxTy) (f : Field) (r : Reg),
    (f = .cond ∧ s.condEn = false) ∨ t ≠ f.ty →
    exec (.fset t f r) s = .next { s with ill := true, errCmd := s.cmdWord } ∧
    exec (.fget t r f) s = .next { s with ill := true, errCmd := s.cmdWord })

/-! ### FSU -/

/-- R66, R161: FCLR leaves exactly the cleared bytes of the layout, 0x00 after them and SEALED = 0, and
changes nothing else. -/
def Obligations.FclrLeavesClearedFrame : Prop :=
  crc8 [0x00, 0x80, 0x80, 0x00, 0x80, 0x80, 0x00, 0x00, 0x80, 0x00, 0x00, 0x00, 0x00, 0x80] = 0x4B ∧
  crc8 [0x00, 0x80, 0x80, 0x00, 0x80, 0x80, 0x00, 0x80, 0x00, 0x00, 0x00, 0x00, 0x80] = 0xD8 ∧
  ∀ s : State, ∃ u, exec .fclr s = .next u ∧ u.frameSealed = false ∧ changesOnlyFrame 0 16 s u ∧
    frameHolds u (if s.condEn then
      [0x00, 0x80, 0x80, 0x00, 0x80, 0x80, 0x00, 0x00, 0x80, 0x00, 0x00, 0x00, 0x00, 0x80, 0xB4, 0x00]
    else
      [0x00, 0x80, 0x80, 0x00, 0x80, 0x80, 0x00, 0x80, 0x00, 0x00, 0x00, 0x00, 0x80, 0x27, 0x00, 0x00])

/-- R161: FCLR is idempotent, in every state whose memory is canonical (the form every step keeps,
`MemoryStaysCanonical`). -/
def Obligations.FclrIdempotent : Prop :=
  ∀ s : State, s.mem.wf → ∃ u, exec .fclr s = .next u ∧ exec .fclr u = .next u

/-- R162, R163: FSEAL stores the CRC of FRAME[0..L-2] in FRAME[L-1] and sets SEALED, and nothing else. -/
def Obligations.FsealStoresCrc : Prop :=
  ∀ s : State, ∃ u, exec .fseal s = .next u ∧ u.frameSealed = true ∧
    u.frameByte (s.frameLen - 1) = crc8 ((List.range (s.frameLen - 1)).map s.frameByte) ∧
    (∀ k, k < s.frameLen - 1 → u.frameByte k = s.frameByte k) ∧
    changesOnlyFrame (s.frameLen - 1) 1 s u

/-- R164: FVERIFY of a matching checksum writes 1, sets SEALED and leaves every byte; of another it
writes 0, clears SEALED and leaves the cleared frame. Nothing else changes. -/
def Obligations.FverifyKeepsOrClears : Prop :=
  ∀ (s : State) (rd : Reg), ∃ u, exec (.fverify rd) s = .next u ∧
    (∀ r, r ≠ rd → u.reg r = s.reg r) ∧
    (crc8 ((List.range (s.frameLen - 1)).map s.frameByte) = s.frameByte (s.frameLen - 1) →
      u.reg rd = 1 ∧ u.frameSealed = true ∧ (∀ a, u.mem.read a = s.mem.read a) ∧
      u = { s with regs := u.regs, frameSealed := true }) ∧
    (crc8 ((List.range (s.frameLen - 1)).map s.frameByte) ≠ s.frameByte (s.frameLen - 1) →
      u.reg rd = 0 ∧ u.frameSealed = false ∧ sameOutside frameBase 16 s u ∧
      u = { s with regs := u.regs, mem := u.mem, frameSealed := false } ∧
      ∃ c, exec .fclr s = .next c ∧ ∀ k, k < 16 → u.frameByte k = c.frameByte k)

/-- R165: FSEAL followed by FVERIFY with no FRAME write between succeeds, in every state that keeps the
layout and the frame bytes, whatever else has changed; after FSEAL, one flipped bit of any byte
FRAME[0..L-1], field byte or checksum, makes FVERIFY fail. -/
def Obligations.SealDetectsEveryBitFlip : Prop :=
  ∀ (s : State) (rd : Reg), ∃ u, exec .fseal s = .next u ∧
    (∀ x : State, x.condEn = u.condEn →
      (∀ i, i < s.frameLen → x.frameByte i = u.frameByte i) →
      ∃ v, exec (.fverify rd) x = .next v ∧ v.reg rd = 1 ∧ v.frameSealed = true) ∧
    ∀ (x : State) (k : Nat) (j : Nat), k < s.frameLen → j < 8 → x.condEn = u.condEn →
      (∀ i, i < s.frameLen → i ≠ k → x.frameByte i = u.frameByte i) →
      x.frameByte k = u.frameByte k ^^^ BitVec.twoPow 8 j →
      ∃ v, exec (.fverify rd) x = .next v ∧ v.reg rd = 0 ∧ v.frameSealed = false

/-- R166: FSET of a field present in the layout, with the field's type, stores the low bytes of its
source little-endian at the field's offset (FAN: 0x01 if bits 7:0 are not 0, else 0x00) and clears
SEALED, and nothing else. R64, R167: the fields' sizes, types and offsets are the table's, the
offsets in the 14-byte layout for the seven fields present in it. -/
def Obligations.FsetStoresField : Prop :=
  [Field.tin, .rhin, .tout, .rhout, .cond, .volt, .fan, .rpm].map Field.size =
    [2, 1, 2, 1, 1, 2, 1, 4] ∧
  [Field.tin, .rhin, .tout, .rhout, .cond, .volt, .fan, .rpm].map (Field.offset true) =
    [0, 2, 3, 5, 6, 7, 9, 10] ∧
  [Field.tin, .rhin, .tout, .rhout, .volt, .fan, .rpm].map (Field.offset false) =
    [0, 2, 3, 5, 6, 8, 9] ∧
  [Field.tin, .rhin, .tout, .rhout, .cond, .volt, .fan, .rpm].map Field.ty =
    [⟨.s16, .one⟩, ⟨.s8, .zero⟩, ⟨.s16, .one⟩, ⟨.s8, .zero⟩, ⟨.u8, .zero⟩, ⟨.s16, .one⟩, ⟨.u8, .zero⟩,
      ⟨.s32, .zero⟩] ∧
  ∀ (s : State) (f : Field) (ra : Reg), (f = .cond → s.condEn = true) →
    ∃ u, exec (.fset f.ty f ra) s = .next u ∧ u.frameSealed = false ∧
      changesOnlyFrame (f.offset s.condEn) f.size s u ∧
      (f = .fan → u.frameByte (f.offset s.condEn) =
        if (s.reg ra).setWidth 8 = (0 : Byte) then 0x00 else 0x01) ∧
      (f ≠ .fan → ∀ i, i < f.size →
        u.frameByte (f.offset s.condEn + i) = (s.reg ra).extractLsb' (8 * i) 8)

/-- R169: FGET of a field present in the layout, with the field's type, reads it: FAN as 0 or 1, COND
zero-extended, a fixed-point field canonical with its bytes as the low bytes. Nothing else changes. -/
def Obligations.FgetReadsField : Prop :=
  ∀ (s : State) (f : Field) (rd : Reg), (f = .cond → s.condEn = true) →
    ∃ u, exec (.fget f.ty rd f) s = .next u ∧ changesOnlyReg rd s u ∧
      (f = .fan → u.reg rd = if s.frameByte (f.offset s.condEn) = 0 then 0 else 1) ∧
      (f = .cond → u.reg rd = (s.frameByte (f.offset s.condEn)).setWidth 32) ∧
      (f ≠ .fan → f.ty.canonical (u.reg rd) ∧
        ∀ i, i < f.size → (u.reg rd).extractLsb' (8 * i) 8 = s.frameByte (f.offset s.condEn + i))

/-- R166, R169: reading a field back after setting it gives the source's value under the field's type
(for FAN, whether its low byte is not 0). -/
def Obligations.FgetAfterFset : Prop :=
  ∀ (s : State) (f : Field) (ra rd : Reg), (f = .cond → s.condEn = true) →
    ∃ u v, exec (.fset f.ty f ra) s = .next u ∧ exec (.fget f.ty rd f) u = .next v ∧
      (f = .fan → v.reg rd = if (s.reg ra).setWidth 8 = (0 : Byte) then 0 else 1) ∧
      (f ≠ .fan → v.reg rd = f.ty.canon (f.ty.val (s.reg ra)))

/-- R161: FVERIFY of a cleared frame fails and leaves the same bytes. -/
def Obligations.ClearedFrameFailsVerify : Prop :=
  ∀ (s : State) (rd : Reg), ∃ u v, exec .fclr s = .next u ∧ exec (.fverify rd) u = .next v ∧
    v.reg rd = 0 ∧ v.frameSealed = false ∧ ∀ k, k < 16 → v.frameByte k = u.frameByte k

/-! ### PCU -/

/-- R194, R195: PPOLL with less than SAMPLE_MIN, or nothing, elapsed since the last sample writes 0 and
nothing else; otherwise it writes 1, takes and resets EDGE_CNT, and caches floor(c * RPT_PERIOD / el). -/
def Obligations.PpollSamplesWindow : Prop :=
  ∀ (s : State) (rd : Reg) (el : Nat),
    el = (s.nowMs.toNat + 2 ^ 32 - s.lastSample.toNat) % 2 ^ 32 →
    ∃ u, exec (.ppoll rd) s = .next u ∧ (∀ r, r ≠ rd → u.reg r = s.reg r) ∧
      (∀ a, u.mem.read a = s.mem.read a) ∧
      (el < s.sampleMin.toNat ∨ el = 0 → u.reg rd = 0 ∧ u = { s with regs := u.regs }) ∧
      (s.sampleMin.toNat ≤ el → el ≠ 0 →
        u.reg rd = 1 ∧ u.rate.toNat = s.edgeCnt.toNat * s.rptPeriod.toNat / el ∧
        u = { s with
          regs := u.regs, edgeCnt := 0, rate := u.rate, rateValid := true, lastSample := s.nowMs })

/-- R197: PRATE writes RATE where a sample exists and RATE is at most 2^31 - 1, and the invalid s32
otherwise, and nothing else. -/
def Obligations.PrateAnswersCachedRate : Prop :=
  ∀ (s : State) (rd : Reg), ∃ u, exec (.prate rd) s = .next u ∧ changesOnlyReg rd s u ∧
    (s.rateValid = true → s.rate.toNat < 2 ^ 31 →
      u.reg rd = s.rate ∧ (FxTy.mk .s32 .zero).val (u.reg rd) = s.rate.toNat) ∧
    (s.rateValid = false ∨ 2 ^ 31 ≤ s.rate.toNat →
      (FxTy.mk .s32 .zero).val (u.reg rd) = (FxTy.mk .s32 .zero).minT)

/-- R191: a falling transition on EDGE_IN adds one to EDGE_CNT, saturating at 0xFFFF; any other level
leaves it; EDGE_PREV becomes the level, and nothing else changes. -/
def Obligations.EdgeStepCountsFalling : Prop :=
  ∀ (s : State) (level : Bool) (rest : List Instant), s.inputs = edgeInstant level :: rest →
    ∃ u, step s = .next u ∧
      u.edgeCnt.toNat =
        (if s.edgePrev = true ∧ level = false then min (s.edgeCnt.toNat + 1) 0xFFFF
         else s.edgeCnt.toNat) ∧
      u = { s with inputs := rest, edgeCnt := u.edgeCnt, edgePrev := level }

/-- R190, R225: a tick advances NOW_MS by one modulo 2^32 and counts an active override down by one,
returning FORCE_TIER to 0 when it reaches 0; nothing else changes. -/
def Obligations.TickAdvancesTimers : Prop :=
  ∀ (s : State) (rest : List Instant), s.inputs = tickInstant :: rest →
    ∃ u, step s = .next u ∧ u.nowMs.toNat = (s.nowMs.toNat + 1) % 2 ^ 32 ∧
      (s.forceRemain.toNat = 0 → u.forceRemain = s.forceRemain ∧ u.forceTier = s.forceTier) ∧
      (s.forceRemain.toNat = 1 → u.forceRemain = 0 ∧ u.forceTier = 0) ∧
      (2 ≤ s.forceRemain.toNat →
        u.forceRemain.toNat = s.forceRemain.toNat - 1 ∧ u.forceTier = s.forceTier) ∧
      u = { s with
        inputs := rest, nowMs := u.nowMs, forceRemain := u.forceRemain, forceTier := u.forceTier }

/-- R198: outside RESET, an instant whose host access is no PPOLL command, or one that finds no new
sample, leaves LAST_SAMPLE, RATE and RATE_VALID, never lowers EDGE_CNT, and leaves it where no edge is
presented. -/
def Obligations.PulseStateOwnership : Prop :=
  ∀ (s t : State) (i : Instant) (rest : List Instant),
    s.inputs = i :: rest → step s = .next t → i.reset = false →
    (∀ a w rd, i.host = some (.write a w 0xF) → hostReg a = .cmd → decode w = .ok (.ppoll rd) →
      s.elapsed s.lastSample < s.sampleMin ∨ s.elapsed s.lastSample = 0) →
    t.lastSample = s.lastSample ∧ t.rate = s.rate ∧ t.rateValid = s.rateValid ∧
      s.edgeCnt.toNat ≤ t.edgeCnt.toNat ∧ (i.edge = none → t.edgeCnt = s.edgeCnt)

/-! ### CFU -/

/-- R211: CLASSIFY writes the code of the first of the six steps that matches, and nothing else.
Comparisons with an invalid side, a threshold's among them, are false. -/
def Obligations.ClassifyFirstMatch : Prop :=
  ∀ (s : State) (t : FxTy) (rd ra rb rc re : Reg) (tin tout vin vout hot cold : Int),
    tin = t.val (s.reg ra) → tout = t.val (s.reg rb) → vin = t.val (s.reg rc) →
    vout = t.val (s.reg re) → hot = t.val s.hotTh → cold = t.val s.coldTh →
    ∃ u, exec (.classify t rd ra rb rc re) s = .next u ∧ changesOnlyReg rd s u ∧
      (tin = t.minT ∨ tout = t.minT → u.reg rd = 0) ∧
      (tin ≠ t.minT → tout ≠ t.minT →
        (hot ≠ t.minT ∧ hot < tin ∧ tin < tout → u.reg rd = 1) ∧
        (¬(hot ≠ t.minT ∧ hot < tin ∧ tin < tout) →
          (cold ≠ t.minT ∧ tin < cold ∧ tout < tin → u.reg rd = 2) ∧
          (¬(cold ≠ t.minT ∧ tin < cold ∧ tout < tin) →
            (vin = t.minT ∨ vout = t.minT → u.reg rd = 0) ∧
            (vin ≠ t.minT → vout ≠ t.minT → vin ≤ vout → u.reg rd = 3) ∧
            (vin ≠ t.minT → vout ≠ t.minT → vout < vin → u.reg rd = 4))))

/-- R221: FTICK commands the fan on while an override is active; leaves it while EVAL_PERIOD has not
elapsed; otherwise re-evaluates (Damp and v > vmin, both valid) and restarts the timer. No register,
no byte of memory and nothing else changes. -/
def Obligations.FtickThreeCases : Prop :=
  ∀ (s : State) (t : FxTy) (ra rb : Reg) (el : Nat),
    el = (s.nowMs.toNat + 2 ^ 32 - s.lastEval.toNat) % 2 ^ 32 →
    ∃ u, exec (.ftick t ra rb) s = .next u ∧
      (∀ r, u.reg r = s.reg r) ∧ (∀ a, u.mem.read a = s.mem.read a) ∧
      u = { s with power := u.power, lastEval := u.lastEval } ∧
      (s.forceRemain ≠ 0 → u.power = true ∧ u.lastEval = s.lastEval) ∧
      (s.forceRemain = 0 → el < s.evalPeriod.toNat →
        u.power = s.power ∧ u.lastEval = s.lastEval) ∧
      (s.forceRemain = 0 → s.evalPeriod.toNat ≤ el →
        u.lastEval = s.nowMs ∧
        (u.power = true ↔ s.reg ra = 4 ∧ t.val (s.reg rb) ≠ t.minT ∧ t.val s.vmin ≠ t.minT ∧
          t.val s.vmin < t.val (s.reg rb)))

/-- R224: FPRESS moves to the next tier of the ladder and its full duration, and changes nothing else:
no register, no byte of memory, neither POWER nor LAST_EVAL. -/
def Obligations.FpressClimbsLadder : Prop :=
  ∀ s : State, ∃ u, exec .fpress s = .next u ∧
    u.forceTier.toNat = (s.forceTier.toNat + 1) % 6 ∧
    u.forceRemain.toNat =
      [0, 60000, 300000, 900000, 3600000, 7200000].getD ((s.forceTier.toNat + 1) % 6) 0 ∧
    (∀ r, u.reg r = s.reg r) ∧ (∀ a, u.mem.read a = s.mem.read a) ∧
    u = { s with forceTier := u.forceTier, forceRemain := u.forceRemain }

/-- R226: from FORCE_TIER = 0, n successive FPRESS commands with no tick between leave tier n mod 6 and
its duration: 60000, 300000, 900000, 3600000, 7200000, 0, 60000, and so on. -/
def Obligations.LadderCyclesWithPeriodSix : Prop :=
  ∀ (n : Nat) (s : State) (rest : List Instant),
    s.inputs = List.replicate n (commandInstant 0x3A000000) ++ rest → s.forceTier = 0 →
    ∃ t, runSteps n s = some t ∧ t.forceTier.toNat = n % 6 ∧
      (0 < n → t.forceRemain.toNat =
        [0, 60000, 300000, 900000, 3600000, 7200000].getD (n % 6) 0)

/-- R225: n ticks with nothing else lower an override of N ms to N - n, and at N ticks it is over and
the ladder is back at 0; NOW_MS has advanced by n modulo 2^32. -/
def Obligations.OverrideLastsItsDuration : Prop :=
  ∀ (n : Nat) (s : State) (rest : List Instant),
    s.inputs = List.replicate n tickInstant ++ rest → s.forceInv →
    ∃ t, runSteps n s = some t ∧ t.forceRemain.toNat = s.forceRemain.toNat - n ∧
      t.nowMs.toNat = (s.nowMs.toNat + n) % 2 ^ 32 ∧
      (n < s.forceRemain.toNat → t.forceTier = s.forceTier) ∧
      (s.forceRemain.toNat ≤ n → t.forceTier = 0)

/-- R27, R37: outside RESET, an instant whose host access is no FTICK command leaves
POWER, and so FAN_OUT. -/
def Obligations.OnlyFtickChangesPower : Prop :=
  ∀ (s t : State) (i : Instant) (rest : List Instant),
    s.inputs = i :: rest → step s = .next t → i.reset = false →
    (∀ a w ty ra rb, i.host = some (.write a w 0xF) → hostReg a = .cmd →
      decode w ≠ .ok (.ftick ty ra rb)) →
    t.power = s.power ∧ t.fanOut = s.fanOut

/-! ### The host's view, reset and the order of events -/

/-- R27: a read of STATUS shows SEALED, RATE_VALID, POWER, FORCE and ILL at bits 0, 1, 2, 3 and 8, FORCE
being FORCE_REMAIN ≠ 0, and 0 in every other bit. -/
def Obligations.StatusShowsFlags : Prop :=
  ∀ (s : State) (k : Nat), k < 32 →
    (s.hostRead 0x04).getLsbD k =
      if k = 0 then s.frameSealed
      else if k = 1 then s.rateValid
      else if k = 2 then s.power
      else if k = 3 then decide (s.forceRemain ≠ 0)
      else if k = 8 then s.ill
      else false

/-- R27: a host write to STATUS with all byte enables changes only ILL: a 1 in bit 8 clears it, a 0
leaves it. -/
def Obligations.StatusWriteClearsIll : Prop :=
  ∀ (s : State) (v : Word), s.hostWrite 0x04 v 0xF = .next { s with ill := s.ill && !v.getLsbD 8 }

/-- R247: RESET alone takes effect and the rest of its instant is lost; otherwise the host access, the
edge and the tick of one instant are the interleaving host, edge, tick of single steps. -/
def Obligations.CoincidentStepsInterleave : Prop :=
  (∀ (s : State) (h : Option HostAccess) (e : Option Bool) (k : Bool) (rest : List Instant),
    step { s with inputs := ⟨true, h, e, k⟩ :: rest } =
      step { s with inputs := ⟨true, none, none, false⟩ :: rest }) ∧
  (∀ (s : State) (h : Option HostAccess) (e : Option Bool) (k : Bool) (rest : List Instant),
    ∃ t, step { s with inputs := ⟨false, h, e, k⟩ :: rest } = .next t ∧
      runSteps 3 { s with
        inputs := ⟨false, h, none, false⟩ :: ⟨false, none, e, false⟩ :: ⟨false, none, none, k⟩ ::
          rest } = some t)

/-- R260: RESET sets every state element with a reset value to it, as one step, whatever else the
instant holds. R0..R7 are not named: they are unspecified (R261). -/
def Obligations.ResetStepSetsResetValues : Prop :=
  ∀ (s : State) (i : Instant) (rest : List Instant), s.inputs = i :: rest → i.reset = true →
    ∃ t, step s = .next t ∧
      t.frameSealed = false ∧ t.rateValid = false ∧ t.power = false ∧ t.ill = false ∧
      t.errCmd = 0 ∧ t.condEn = true ∧ t.hotTh = 50 ∧ t.coldTh = 10 ∧ t.vmin = 70 ∧
      t.evalPeriod = 30000 ∧ t.sampleMin = 1000 ∧ t.rptPeriod = 60000 ∧ t.nowMs = 0 ∧
      t.edgeCnt = 0 ∧ t.edgePrev = false ∧ t.lastSample = 0 ∧ t.rate = 0 ∧ t.lastEval = 0 ∧
      t.forceRemain = 0 ∧ t.forceTier = 0 ∧ t.fmtLen = 0 ∧ t.fanOut = false ∧
      (∀ k, k < 16 → t.fmtByte k = 0) ∧
      frameHolds t [0x00, 0x80, 0x80, 0x00, 0x80, 0x80, 0x00, 0x00, 0x80, 0x00, 0x00, 0x00, 0x00,
        0x80, 0xB4, 0x00]

/-- R30, R61, R63, with 95_test_vectors.md section 8 (R260). In every state a host read of a word
register's offset returns that register, zero-extended (STATUS: `StatusShowsFlags`; the byte arrays:
`ByteArraysReadByLanes`), and CMD and the reserved offsets read 0. After reset, the reads of every
defined offset but those of R0..R7 are those of the table. -/
def Obligations.ResetReads : Prop :=
  (∀ s : State,
    s.hostRead 0x08 = s.errCmd ∧ s.hostRead 0x0C = (if s.condEn then 1 else 0) ∧
    (∀ r : Reg, s.hostRead (BitVec.ofNat 8 (0x10 + 4 * r.val)) = s.reg r) ∧
    s.hostRead 0x30 = s.nowMs ∧ s.hostRead 0x34 = s.hotTh ∧ s.hostRead 0x38 = s.coldTh ∧
    s.hostRead 0x3C = s.vmin ∧ s.hostRead 0x40 = s.evalPeriod ∧ s.hostRead 0x44 = s.sampleMin ∧
    (s.hostRead 0x48).toNat = s.rptPeriod.toNat ∧ s.hostRead 0x50 = s.lastSample ∧
    s.hostRead 0x54 = s.rate ∧ s.hostRead 0x58 = s.lastEval ∧ s.hostRead 0x5C = s.forceRemain ∧
    (s.hostRead 0x60).toNat = s.forceTier.toNat ∧ (s.hostRead 0x64).toNat = s.fmtLen.toNat ∧
    s.hostRead 0x68 = (if s.condEn then 15 else 14)) ∧
  (∀ (s : State) (a : BitVec 8),
    a &&& 0xFC ∈ ([0x00, 0x4C, 0x6C] : List (BitVec 8)) ∨ 0x90 ≤ a → s.hostRead a = 0) ∧
  ∀ p ∈ ([(0x00, 0), (0x04, 0), (0x08, 0), (0x0C, 1), (0x30, 0), (0x34, 0x32), (0x38, 0x0A),
      (0x3C, 0x46), (0x40, 0x7530), (0x44, 0x3E8), (0x48, 0xEA60), (0x50, 0), (0x54, 0), (0x58, 0),
      (0x5C, 0), (0x60, 0), (0x64, 0), (0x68, 0x0F), (0x70, 0), (0x74, 0), (0x78, 0), (0x7C, 0),
      (0x80, 0x00808000), (0x84, 0x00008080), (0x88, 0x00000080), (0x8C, 0x00B48000)] :
      List (BitVec 8 × Word)),
    State.reset.hostRead p.1 = p.2

/-- R69: a HostRead has no side effect: the step takes the instant and returns the word to the host
(`readData`, the model's own, log 4), and nothing else changes. -/
def Obligations.ReadsHaveNoSideEffect : Prop :=
  ∀ (s : State) (a : BitVec 8) (rest : List Instant), s.inputs = hostInstant (.read a) :: rest →
    step s = .next { s with inputs := rest, readData := s.hostRead a }

/-- R63, R69: a write without all four byte enables to any offset but FRAME's (CMD among them), and any
write to a read-only register, FMTBUF or a reserved offset, is ignored: nothing changes, and ILL is not
set. -/
def Obligations.IgnoredWritesChangeNothing : Prop :=
  (∀ (s : State) (a : BitVec 8) (v : Word) (be : BitVec 4), a < 0x80 ∨ 0x90 ≤ a → be ≠ 0xF →
    s.hostWrite a v be = .next s) ∧
  (∀ (s : State) (a : BitVec 8) (v : Word) (be : BitVec 4),
    a &&& 0xFC ∈ ([0x08, 0x30, 0x4C, 0x50, 0x54, 0x58, 0x5C, 0x60, 0x64, 0x68, 0x6C] :
      List (BitVec 8)) ∨ (0x70 ≤ a ∧ a < 0x80) ∨ 0x90 ≤ a →
    s.hostWrite a v be = .next s)

/-- R22, R23, R29: the host reads back what it writes to an operand register and to a configuration
register (RPT_PERIOD: bits 15:0), and no other register or memory byte changes. -/
def Obligations.HostReadsBackWrites : Prop :=
  (∀ (s : State) (r : Reg) (v : Word), ∃ u,
    s.hostWrite (BitVec.ofNat 8 (0x10 + 4 * r.val)) v 0xF = .next u ∧ changesOnlyReg r s u ∧
      u.reg r = v ∧ u.hostRead (BitVec.ofNat 8 (0x10 + 4 * r.val)) = v) ∧
  (∀ (s : State) (v : Word),
    s.hostWrite 0x34 v 0xF = .next { s with hotTh := v } ∧
    s.hostWrite 0x38 v 0xF = .next { s with coldTh := v } ∧
    s.hostWrite 0x3C v 0xF = .next { s with vmin := v } ∧
    s.hostWrite 0x40 v 0xF = .next { s with evalPeriod := v } ∧
    s.hostWrite 0x44 v 0xF = .next { s with sampleMin := v } ∧
    s.hostWrite 0x48 v 0xF = .next { s with rptPeriod := v.setWidth 16 }) ∧
  (∀ (s : State) (a : BitVec 8) (v : Word), a ∈ ([0x34, 0x38, 0x3C, 0x40, 0x44] : List (BitVec 8)) →
    ∃ u, s.hostWrite a v 0xF = .next u ∧ u.hostRead a = v) ∧
  (∀ (s : State) (v : Word), ∃ u, s.hostWrite 0x48 v 0xF = .next u ∧
    u.hostRead 0x48 = v &&& 0xFFFF)

/-- R62: a host write to FRAME word q writes each byte k < FRAMELEN whose lane is enabled, ignores the
others, and clears SEALED if it writes at least one byte; nothing else changes. -/
def Obligations.FrameWriteByLanes : Prop :=
  ∀ (s : State) (q : Fin 4) (v : Word) (be : BitVec 4), ∃ u,
    s.hostWrite (BitVec.ofNat 8 (0x80 + 4 * q.val)) v be = .next u ∧
    (∀ j, j < 4 → u.frameByte (4 * q.val + j) =
      if be.getLsbD j = true ∧ 4 * q.val + j < s.frameLen then v.extractLsb' (8 * j) 8
      else s.frameByte (4 * q.val + j)) ∧
    (u.frameSealed = true ↔ s.frameSealed = true ∧
      ∀ j, j < 4 → be.getLsbD j = true → s.frameLen ≤ 4 * q.val + j) ∧
    changesOnlyFrame (4 * q.val) 4 s u

/-- R62, R67: a host read of the byte arrays: byte lane j of word q is FRAME[4q + j], 0x00 from FRAMELEN
on, and FMTBUF[4q + j]. -/
def Obligations.ByteArraysReadByLanes : Prop :=
  ∀ (s : State) (q : Fin 4) (j : Nat), j < 4 →
    (s.hostRead (BitVec.ofNat 8 (0x80 + 4 * q.val))).extractLsb' (8 * j) 8 =
      (if 4 * q.val + j < s.frameLen then s.frameByte (4 * q.val + j) else 0) ∧
    (s.hostRead (BitVec.ofNat 8 (0x70 + 4 * q.val))).extractLsb' (8 * j) 8 =
      s.fmtByte (4 * q.val + j)

/-- R31: a write to CTRL that changes COND_EN has the effect of FCLR, in the new layout (log 12); one
that leaves COND_EN has no effect. -/
def Obligations.CtrlChangeClearsFrame : Prop :=
  ∀ (s : State) (v : Word),
    (v.getLsbD 0 = s.condEn → s.hostWrite 0x0C v 0xF = .next s) ∧
    (v.getLsbD 0 ≠ s.condEn →
      ∃ u, s.hostWrite 0x0C v 0xF = .next u ∧
        exec .fclr { s with condEn := v.getLsbD 0 } = .next u ∧
        u.condEn = v.getLsbD 0 ∧ u.frameSealed = false ∧
        u.hostRead 0x0C = (if v.getLsbD 0 then 1 else 0) ∧
        u.hostRead 0x68 = (if v.getLsbD 0 then 15 else 14))

/-- R68: address bits 1:0 are ignored, in reads and in writes. -/
def Obligations.LowAddressBitsIgnored : Prop :=
  ∀ (s : State) (a : BitVec 8) (v : Word) (be : BitVec 4),
    s.hostRead a = s.hostRead (a &&& 0xFC) ∧ s.hostWrite a v be = s.hostWrite (a &&& 0xFC) v be

/-! ### Rules of the whole machine -/

/-- R240: no condition is fatal: every step, from every state, answers a next state. -/
def Obligations.EveryStepGoesOn : Prop := ∀ s : State, ∃ t, step s = .next t

/-- R29, R30: no command writes a configuration register, COND_EN, NOW_MS or EDGE_PREV. -/
def Obligations.CommandsKeepConfiguration : Prop :=
  ∀ (i : Instr) (s : State), ∃ t, exec i s = .next t ∧
    t.hotTh = s.hotTh ∧ t.coldTh = s.coldTh ∧ t.vmin = s.vmin ∧ t.evalPeriod = s.evalPeriod ∧
    t.sampleMin = s.sampleMin ∧ t.rptPeriod = s.rptPeriod ∧ t.condEn = s.condEn ∧
    t.nowMs = s.nowMs ∧ t.edgePrev = s.edgePrev

/-- Log 6, from R60 and R62: every step keeps the byte arrays' canonical form, from every state. -/
def Obligations.MemoryStaysCanonical : Prop :=
  ∀ s t : State, s.mem.wf → step s = .next t → t.mem.wf

/-- R225: every step keeps FORCE_REMAIN = 0 exactly when FORCE_TIER = 0, with a tier of at most 5 and no
more than the tier's duration remaining. -/
def Obligations.OverrideInvariantKept : Prop :=
  ∀ s t : State, s.forceInv → step s = .next t → t.forceInv

/-- R31, R32: every step keeps that SEALED = 1 means a current checksum, and that FRAME bytes from
FRAMELEN on are 0x00. For a change of COND_EN this rests on the model's inference that the clear uses
the new layout (log 12, DEDUCED: R31 does not say which). -/
def Obligations.SealedChecksumStaysCurrent : Prop :=
  ∀ s t : State, s.sealInv → s.tailInv → step s = .next t → t.sealInv ∧ t.tailInv

/-- R30, R146, R197, R198: every step keeps FMTLEN within 16 with zeros after the text, and RATE and
LAST_SAMPLE at 0 until the first sample. -/
def Obligations.TextAndRateInvariantsKept : Prop :=
  ∀ s t : State, s.textInv → s.rateInv → step s = .next t → t.textInv ∧ t.rateInv

/-- R260: the state after reset is safe. -/
def Obligations.ResetStateIsSafe : Prop := State.reset.safe
end

