-- ==== Sys2Proof/Laws/Memory.lean ====
section
/-! SUPPORT. Laws/Memory.lean: what reading and writing the byte arrays do, once: a read after a write,
the bytes a write leaves alone, the canonical form, and that equal reads mean equal memories. -/

namespace Sys2Proof.Machine

theorem Memory.read_nil (a : Nat) : Memory.read [] a = Memory.resetByte a := rfl

theorem Memory.read_cons (b : Nat) (v : Byte) (m : Memory) (a : Nat) :
    Memory.read ((b, v) :: m) a = if b = a then v else Memory.read m a := rfl

/-- An offset that no cell lists reads as the reset contents. -/
theorem Memory.read_of_unlisted (m : Memory) (a : Nat) (h : ∀ c ∈ m, c.1 ≠ a) :
    m.read a = Memory.resetByte a := by
  induction m with
  | nil => rfl
  | cons c m ih =>
    obtain ⟨b, v⟩ := c
    rw [Memory.read_cons, if_neg (h (b, v) (by simp))]
    exact ih fun c hc => h c (by simp [hc])

theorem Memory.read_filter_other (m : Memory) (a b : Nat) (h : b ≠ a) :
    Memory.read (m.filter fun c => c.1 != a) b = m.read b := by
  induction m with
  | nil => rfl
  | cons c m ih =>
    obtain ⟨k, v⟩ := c
    by_cases hk : k = a
    · have hkb : k ≠ b := by omega
      simp [hk, Memory.read_cons, ih, Ne.symm h]
    · simp [hk, Memory.read_cons, ih]

theorem Memory.read_insertCell (m : Memory) (a : Nat) (v : Byte) (h : ∀ c ∈ m, c.1 ≠ a) (b : Nat) :
    (m.insertCell a v).read b = if b = a then v else m.read b := by
  induction m with
  | nil => simp [Memory.insertCell, Memory.read_cons, Memory.read_nil, eq_comm]
  | cons c m ih =>
    obtain ⟨k, u⟩ := c
    have hk : k ≠ a := h (k, u) (by simp)
    have ih := ih fun c hc => h c (by simp [hc])
    by_cases hlt : a < k
    · simp only [Memory.insertCell, hlt, if_true, Memory.read_cons, eq_comm]
    · simp only [Memory.insertCell, hlt, if_false, Memory.read_cons, ih]
      by_cases hkb : k = b
      · subst hkb; simp [hk]
      · simp [hkb]

/-- Everything a write of one byte does to what memory reads as. -/
theorem Memory.read_write (m : Memory) (a : Nat) (v : Byte) (b : Nat) :
    (m.write a v).read b = if b = a then v else m.read b := by
  have hu : ∀ c ∈ m.filter (fun c => c.1 != a), c.1 ≠ a := by simp
  by_cases hv : v = Memory.resetByte a
  · simp only [Memory.write, if_pos hv]
    by_cases hb : b = a
    · subst hb; rw [if_pos rfl, Memory.read_of_unlisted _ _ hu, hv]
    · rw [if_neg hb, Memory.read_filter_other m a b hb]
  · simp only [Memory.write, if_neg hv]
    rw [Memory.read_insertCell _ _ _ hu]
    by_cases hb : b = a
    · simp [hb]
    · rw [if_neg hb, if_neg hb, Memory.read_filter_other m a b hb]

@[simp] theorem Memory.read_write_same (m : Memory) (a : Nat) (v : Byte) :
    (m.write a v).read a = v := by simp [Memory.read_write]

theorem Memory.read_write_other (m : Memory) (a : Nat) (v : Byte) (b : Nat) (h : b ≠ a) :
    (m.write a v).read b = m.read b := by simp [Memory.read_write, h]

/-- Everything a write of consecutive bytes does to what memory reads as. -/
theorem Memory.read_writeBytes (bytes : List Byte) (m : Memory) (a b : Nat) :
    (m.writeBytes a bytes).read b =
      if a ≤ b ∧ b < a + bytes.length then bytes.getD (b - a) 0 else m.read b := by
  induction bytes generalizing m a with
  | nil => simp [Memory.writeBytes, show ¬(a ≤ b ∧ b < a) by omega]
  | cons v rest ih =>
    simp only [Memory.writeBytes, ih, Memory.read_write, List.length_cons]
    by_cases h1 : a + 1 ≤ b ∧ b < a + 1 + rest.length
    · have h2 : a ≤ b ∧ b < a + (rest.length + 1) := by omega
      have h3 : b - a = (b - (a + 1)) + 1 := by omega
      rw [if_pos h1, if_pos h2, h3, List.getD_cons_succ]
    · rw [if_neg h1]
      by_cases hb : b = a
      · subst hb
        have h2 : b ≤ b ∧ b < b + (rest.length + 1) := by omega
        rw [if_pos rfl, if_pos h2]; simp
      · have h2 : ¬(a ≤ b ∧ b < a + (rest.length + 1)) := by omega
        rw [if_neg hb, if_neg h2]

/-- A byte outside the written range is unchanged. -/
theorem Memory.read_writeBytes_outside (bytes : List Byte) (m : Memory) (a b : Nat)
    (h : b < a ∨ a + bytes.length ≤ b) : (m.writeBytes a bytes).read b = m.read b := by
  rw [Memory.read_writeBytes, if_neg (by omega)]

/-- A byte inside the written range is the byte written there. -/
theorem Memory.read_writeBytes_inside (bytes : List Byte) (m : Memory) (a k : Nat)
    (h : k < bytes.length) : (m.writeBytes a bytes).read (a + k) = bytes.getD k 0 := by
  rw [Memory.read_writeBytes, if_pos (by omega), Nat.add_sub_cancel_left]

theorem Memory.wf_nil : Memory.wf [] := by simp [Memory.wf]

theorem Memory.mem_insertCell (m : Memory) (a : Nat) (v : Byte) (c : Host.Cell) :
    c ∈ m.insertCell a v ↔ c = (a, v) ∨ c ∈ m := by
  induction m with
  | nil => simp [Memory.insertCell]
  | cons d m ih =>
    obtain ⟨k, u⟩ := d
    by_cases hlt : a < k
    · simp [Memory.insertCell, hlt]
    · simp only [Memory.insertCell, hlt, if_false, List.mem_cons, ih]
      tauto

theorem Memory.pairwise_insertCell (m : Memory) (a : Nat) (v : Byte)
    (hm : m.Pairwise fun c d => c.1 < d.1) (h : ∀ c ∈ m, c.1 ≠ a) :
    (m.insertCell a v).Pairwise fun c d => c.1 < d.1 := by
  induction m with
  | nil => simp [Memory.insertCell]
  | cons d m ih =>
    obtain ⟨k, u⟩ := d
    have hk : k ≠ a := h (k, u) (by simp)
    rw [List.pairwise_cons] at hm
    by_cases hlt : a < k
    · simp only [Memory.insertCell, hlt, if_true, List.pairwise_cons, List.mem_cons]
      refine ⟨?_, hm⟩
      rintro c (rfl | hc)
      · exact hlt
      · have := hm.1 c hc; simp only at this ⊢; omega
    · simp only [Memory.insertCell, hlt, if_false, List.pairwise_cons, Memory.mem_insertCell]
      refine ⟨?_, ih hm.2 fun c hc => h c (by simp [hc])⟩
      rintro c (rfl | hc)
      · simp only; omega
      · exact hm.1 c hc

/-- A write inside the two arrays keeps the canonical form. -/
theorem Memory.wf_write (m : Memory) (a : Nat) (v : Byte) (hm : m.wf) (lo : fmtBase ≤ a)
    (hi : a < frameBase + 16) : (m.write a v).wf := by
  have hp : (m.filter fun c => c.1 != a).Pairwise fun c d => c.1 < d.1 := hm.1.filter _
  have hc : ∀ c ∈ m.filter (fun c => c.1 != a),
      fmtBase ≤ c.1 ∧ c.1 < frameBase + 16 ∧ c.2 ≠ Memory.resetByte c.1 := fun c h =>
    hm.2 c (List.mem_filter.1 h).1
  unfold Memory.write
  by_cases hv : v = Memory.resetByte a
  · simp only [if_pos hv]; exact ⟨hp, hc⟩
  · simp only [if_neg hv]
    refine ⟨Memory.pairwise_insertCell _ _ _ hp (by simp), fun c h => ?_⟩
    rcases (Memory.mem_insertCell _ _ _ _).1 h with rfl | h
    · exact ⟨lo, hi, hv⟩
    · exact hc c h

/-- A write of consecutive bytes inside the two arrays keeps the canonical form. -/
theorem Memory.wf_writeBytes (bytes : List Byte) (m : Memory) (a : Nat) (hm : m.wf)
    (lo : fmtBase ≤ a) (hi : a + bytes.length ≤ frameBase + 16) : (m.writeBytes a bytes).wf := by
  induction bytes generalizing m a with
  | nil => exact hm
  | cons v rest ih =>
    rw [List.length_cons] at hi
    exact ih _ _ (Memory.wf_write m a v hm lo (by omega)) (by omega) (by omega)

theorem Memory.read_head (b : Nat) (v : Byte) (m : Memory) : Memory.read ((b, v) :: m) b = v := by
  simp [Memory.read_cons]

/-- Two canonical memories that read alike at every offset are equal. -/
theorem Memory.ext_of_wf {m n : Memory} (hm : m.wf) (hn : n.wf) (h : ∀ a, m.read a = n.read a) :
    m = n := by
  induction m generalizing n with
  | nil =>
    cases n with
    | nil => rfl
    | cons d n =>
      obtain ⟨k, u⟩ := d
      have := h k
      rw [Memory.read_head, Memory.read_nil] at this
      exact absurd this.symm (hn.2 (k, u) (by simp)).2.2
  | cons c m ih =>
    obtain ⟨b, v⟩ := c
    have hmp := List.pairwise_cons.1 hm.1
    have hunl : ∀ a ≤ b, ∀ c ∈ m, c.1 ≠ a := fun a ha c hc => by
      have := hmp.1 c hc; simp only at this; omega
    cases n with
    | nil =>
      have := h b
      rw [Memory.read_head, Memory.read_nil] at this
      exact absurd this (hm.2 (b, v) (by simp)).2.2
    | cons d n =>
      obtain ⟨k, u⟩ := d
      have hnp := List.pairwise_cons.1 hn.1
      have hunl' : ∀ a ≤ k, ∀ c ∈ n, c.1 ≠ a := fun a ha c hc => by
        have := hnp.1 c hc; simp only at this; omega
      have hbk : b = k := by
        rcases Nat.lt_trichotomy b k with hlt | heq | hgt
        · have hb := h b
          rw [Memory.read_head, Memory.read_cons, if_neg (by omega),
            Memory.read_of_unlisted n b (hunl' b (by omega))] at hb
          exact absurd hb (hm.2 (b, v) (by simp)).2.2
        · exact heq
        · have hk := h k
          rw [Memory.read_head, Memory.read_cons, if_neg (by omega),
            Memory.read_of_unlisted m k (hunl k (by omega))] at hk
          exact absurd hk.symm (hn.2 (k, u) (by simp)).2.2
      subst hbk
      have hvu : v = u := by have := h b; rwa [Memory.read_head, Memory.read_head] at this
      subst hvu
      have htail : m = n := by
        refine ih ⟨hmp.2, fun c hc => hm.2 c (by simp [hc])⟩
          ⟨hnp.2, fun c hc => hn.2 c (by simp [hc])⟩ fun a => ?_
        by_cases ha : a = b
        · subst ha
          rw [Memory.read_of_unlisted m a (hunl a le_rfl), Memory.read_of_unlisted n a (hunl' a le_rfl)]
        · have := h a
          rwa [Memory.read_cons, Memory.read_cons, if_neg (Ne.symm ha), if_neg (Ne.symm ha)] at this
      rw [htail]

end Sys2Proof.Machine
end

