-- ==== Sys2Proof/Laws/Operands.lean ====
section
/-! SUPPORT. Laws/Operands.lean: what reading and writing a fixed-point container do, once. -/

namespace Sys2Proof

/-- An integer inside a type's range (R12). -/
abbrev FxTy.inRange (t : FxTy) (x : Int) : Prop := t.minT ≤ x ∧ x ≤ t.maxT

theorem IntTy.width_pos (i : IntTy) : 0 < i.width := by cases i <;> decide

theorem IntTy.width_le (i : IntTy) : i.width ≤ 32 := by cases i <;> decide

theorem FxTy.minT_le_maxT (t : FxTy) : t.minT ≤ t.maxT := by
  obtain ⟨i, d⟩ := t
  cases i <;> cases d <;> decide

/-- A container read under a type is inside the type's range. -/
theorem FxTy.val_inRange (t : FxTy) (r : Word) : t.inRange (t.val r) := by
  unfold FxTy.inRange FxTy.val FxTy.minT FxTy.maxT
  by_cases hs : t.int.signed = true
  · have h1 := (r.setWidth t.width).le_toInt
    have h2 := (r.setWidth t.width).toInt_lt
    simp only [hs, if_true]; constructor <;> omega
  · have h := (r.setWidth t.width).isLt
    have : ((r.setWidth t.width).toNat : Int) < 2 ^ t.width := by exact_mod_cast h
    simp only [hs, if_false, Bool.false_eq_true]; constructor <;> omega

/-- Writing an integer of the range to a container and reading it back gives the integer. -/
theorem FxTy.val_canon (t : FxTy) (x : Int) (h : t.inRange x) : t.val (t.canon x) = x := by
  have hw : t.width ≤ 32 := t.int.width_le
  have h0 : 0 < t.width := t.int.width_pos
  unfold FxTy.inRange FxTy.minT FxTy.maxT at h
  unfold FxTy.val FxTy.canon
  by_cases hs : t.int.signed = true
  · simp only [hs, if_true] at h ⊢
    have : ((BitVec.ofInt t.width x).signExtend 32).setWidth t.width = BitVec.ofInt t.width x := by
      ext i hi
      rw [BitVec.getElem_setWidth, BitVec.getLsbD_signExtend]
      simp [hi, show i < 32 by omega, BitVec.getLsbD_eq_getElem]
    rw [this, BitVec.toInt_ofInt]
    have h2 : (2 : Int) ^ t.width = 2 * 2 ^ (t.width - 1) := by
      rw [← Int.pow_succ', Nat.sub_add_cancel h0]
    apply Int.bmod_eq_of_le <;> push_cast <;> rw [h2] <;> omega
  · simp only [hs, if_false, Bool.false_eq_true] at h ⊢
    rw [BitVec.setWidth_setWidth_of_le _ hw, BitVec.setWidth_eq, BitVec.toNat_ofInt]
    have : (0 : Int) ≤ x % ((2 ^ t.width : Nat) : Int) := Int.emod_nonneg _ (by positivity)
    rw [Int.toNat_of_nonneg this]
    push_cast
    exact Int.emod_eq_of_lt h.1 (by omega)

/-- fit_T answers an integer of the range (R12). -/
theorem FxTy.fit_inRange (t : FxTy) (z : Int) : t.inRange (t.fit z) := by
  have := t.minT_le_maxT
  unfold FxTy.fit
  split <;> constructor <;> omega

/-- The value a register holds after an exact result went through fit_T and canon_T (R128). -/
theorem FxTy.val_canon_fit (t : FxTy) (z : Int) : t.val (t.canon (t.fit z)) = t.fit z :=
  t.val_canon _ (t.fit_inRange z)

theorem FxTy.fit_of_valid (t : FxTy) (z : Int) (h : t.minT < z ∧ z ≤ t.maxT) : t.fit z = z := by
  simp [FxTy.fit, h]

theorem FxTy.fit_of_not (t : FxTy) (z : Int) (h : ¬(t.minT < z ∧ z ≤ t.maxT)) : t.fit z = t.minT := by
  simp [FxTy.fit, h]

/-- Reading INV_T gives the sentinel. -/
@[simp] theorem FxTy.val_inv (t : FxTy) : t.val t.inv = t.minT :=
  t.val_canon _ ⟨le_rfl, t.minT_le_maxT⟩

theorem FxTy.valid_iff (t : FxTy) (x : Int) : t.valid x = true ↔ x ≠ t.minT := by
  simp [FxTy.valid]

theorem FxTy.arith_invalid (t : FxTy) (a b z : Int) (h : a = t.minT ∨ b = t.minT) :
    t.arith a b z = t.inv := by
  rcases h with rfl | rfl <;> simp [FxTy.arith, FxTy.valid]

theorem FxTy.arith_valid (t : FxTy) (a b z : Int) (ha : a ≠ t.minT) (hb : b ≠ t.minT) :
    t.arith a b z = t.canon (t.fit z) := by
  simp [FxTy.arith, FxTy.valid, ha, hb]

/-- A container depends on the low w bits alone (R12, 93 I16). -/
theorem FxTy.val_congr (t : FxTy) (r r' : Word) (h : r.setWidth t.width = r'.setWidth t.width) :
    t.val r = t.val r' := by simp [FxTy.val, h]

end Sys2Proof

namespace Sys2Proof.Machine

theorem decimalDigits_length_le (fuel n : Nat) : (decimalDigits fuel n).length ≤ fuel := by
  induction fuel generalizing n with
  | zero => simp [decimalDigits]
  | succ k ih =>
    unfold decimalDigits
    split
    · simp
    · have := ih (n / 10); simp; omega

/-- The body of a formatted 32-bit value has at most 12 characters (R145). -/
theorem fmtDigits_length_le (dec : Decimals) (n : Nat) : (fmtDigits dec n).length ≤ 11 := by
  have := decimalDigits_length_le 10 n
  cases dec
  · simp [fmtDigits]; omega
  · have hp (l : List Byte) (c : Byte) :
        (l.take (l.length - 1) ++ [c] ++ l.drop (l.length - 1)).length = l.length + 1 := by
      simp only [List.length_append, List.length_take, List.length_drop, List.length_singleton]
      omega
    simp only [fmtDigits, hp]
    split <;> simp only [List.length_cons, List.length_map] <;> simp only [List.length_map] at * <;>
      omega

theorem fmtSign_length_le (plus : Bool) (x : Int) : (fmtSign plus x).length ≤ 1 := by
  unfold fmtSign; split <;> (try split) <;> simp

/-- The text FMT produces for a legal width fits FMTBUF (R145). -/
theorem fmtText_length_le (t : FxTy) (x : Int) (width : Nat) (left plus : Bool) (h : width ≤ 16) :
    (fmtText t x width left plus).length ≤ 16 := by
  have h1 := fmtDigits_length_le t.dec x.natAbs
  have h2 := fmtSign_length_le plus x
  unfold fmtText validText invalidText
  split
  · cases left <;> simp <;> omega
  · simp; omega

end Sys2Proof.Machine
end

