-- ==== Sys2Proof/Laws/State.lean ====
section
/-! SUPPORT. Laws/State.lean: one lemma per field per update of the state, true by definition, and the
registers and bytes seen through an update. -/

namespace Sys2Proof.Machine

section
variable (s : State) (r : Reg) (v : Word)

@[simp] theorem State.setReg_regs : (s.setReg r v).regs = s.regs.set r.val v := rfl
@[simp] theorem State.setReg_frameSealed : (s.setReg r v).frameSealed = s.frameSealed := rfl
@[simp] theorem State.setReg_rateValid : (s.setReg r v).rateValid = s.rateValid := rfl
@[simp] theorem State.setReg_power : (s.setReg r v).power = s.power := rfl
@[simp] theorem State.setReg_ill : (s.setReg r v).ill = s.ill := rfl
@[simp] theorem State.setReg_errCmd : (s.setReg r v).errCmd = s.errCmd := rfl
@[simp] theorem State.setReg_condEn : (s.setReg r v).condEn = s.condEn := rfl
@[simp] theorem State.setReg_hotTh : (s.setReg r v).hotTh = s.hotTh := rfl
@[simp] theorem State.setReg_coldTh : (s.setReg r v).coldTh = s.coldTh := rfl
@[simp] theorem State.setReg_vmin : (s.setReg r v).vmin = s.vmin := rfl
@[simp] theorem State.setReg_evalPeriod : (s.setReg r v).evalPeriod = s.evalPeriod := rfl
@[simp] theorem State.setReg_sampleMin : (s.setReg r v).sampleMin = s.sampleMin := rfl
@[simp] theorem State.setReg_rptPeriod : (s.setReg r v).rptPeriod = s.rptPeriod := rfl
@[simp] theorem State.setReg_nowMs : (s.setReg r v).nowMs = s.nowMs := rfl
@[simp] theorem State.setReg_edgeCnt : (s.setReg r v).edgeCnt = s.edgeCnt := rfl
@[simp] theorem State.setReg_edgePrev : (s.setReg r v).edgePrev = s.edgePrev := rfl
@[simp] theorem State.setReg_lastSample : (s.setReg r v).lastSample = s.lastSample := rfl
@[simp] theorem State.setReg_rate : (s.setReg r v).rate = s.rate := rfl
@[simp] theorem State.setReg_lastEval : (s.setReg r v).lastEval = s.lastEval := rfl
@[simp] theorem State.setReg_forceRemain : (s.setReg r v).forceRemain = s.forceRemain := rfl
@[simp] theorem State.setReg_forceTier : (s.setReg r v).forceTier = s.forceTier := rfl
@[simp] theorem State.setReg_mem : (s.setReg r v).mem = s.mem := rfl
@[simp] theorem State.setReg_fmtLen : (s.setReg r v).fmtLen = s.fmtLen := rfl
@[simp] theorem State.setReg_inputs : (s.setReg r v).inputs = s.inputs := rfl
@[simp] theorem State.setReg_readData : (s.setReg r v).readData = s.readData := rfl
@[simp] theorem State.setReg_cmdWord : (s.setReg r v).cmdWord = s.cmdWord := rfl
@[simp] theorem State.setReg_draws : (s.setReg r v).draws = s.draws := rfl

end

section
variable (s : State) (k : Nat) (bytes : List Byte) (mark : Bool)

@[simp] theorem State.putFrame_regs : (s.putFrame k bytes mark).regs = s.regs := rfl
@[simp] theorem State.putFrame_frameSealed : (s.putFrame k bytes mark).frameSealed = mark := rfl
@[simp] theorem State.putFrame_rateValid : (s.putFrame k bytes mark).rateValid = s.rateValid := rfl
@[simp] theorem State.putFrame_power : (s.putFrame k bytes mark).power = s.power := rfl
@[simp] theorem State.putFrame_ill : (s.putFrame k bytes mark).ill = s.ill := rfl
@[simp] theorem State.putFrame_errCmd : (s.putFrame k bytes mark).errCmd = s.errCmd := rfl
@[simp] theorem State.putFrame_condEn : (s.putFrame k bytes mark).condEn = s.condEn := rfl
@[simp] theorem State.putFrame_hotTh : (s.putFrame k bytes mark).hotTh = s.hotTh := rfl
@[simp] theorem State.putFrame_coldTh : (s.putFrame k bytes mark).coldTh = s.coldTh := rfl
@[simp] theorem State.putFrame_vmin : (s.putFrame k bytes mark).vmin = s.vmin := rfl
@[simp] theorem State.putFrame_evalPeriod :
    (s.putFrame k bytes mark).evalPeriod = s.evalPeriod := rfl
@[simp] theorem State.putFrame_sampleMin : (s.putFrame k bytes mark).sampleMin = s.sampleMin := rfl
@[simp] theorem State.putFrame_rptPeriod : (s.putFrame k bytes mark).rptPeriod = s.rptPeriod := rfl
@[simp] theorem State.putFrame_nowMs : (s.putFrame k bytes mark).nowMs = s.nowMs := rfl
@[simp] theorem State.putFrame_edgeCnt : (s.putFrame k bytes mark).edgeCnt = s.edgeCnt := rfl
@[simp] theorem State.putFrame_edgePrev : (s.putFrame k bytes mark).edgePrev = s.edgePrev := rfl
@[simp] theorem State.putFrame_lastSample :
    (s.putFrame k bytes mark).lastSample = s.lastSample := rfl
@[simp] theorem State.putFrame_rate : (s.putFrame k bytes mark).rate = s.rate := rfl
@[simp] theorem State.putFrame_lastEval : (s.putFrame k bytes mark).lastEval = s.lastEval := rfl
@[simp] theorem State.putFrame_forceRemain :
    (s.putFrame k bytes mark).forceRemain = s.forceRemain := rfl
@[simp] theorem State.putFrame_forceTier : (s.putFrame k bytes mark).forceTier = s.forceTier := rfl
@[simp] theorem State.putFrame_mem :
    (s.putFrame k bytes mark).mem = s.mem.writeBytes (frameBase + k) bytes := rfl
@[simp] theorem State.putFrame_fmtLen : (s.putFrame k bytes mark).fmtLen = s.fmtLen := rfl
@[simp] theorem State.putFrame_inputs : (s.putFrame k bytes mark).inputs = s.inputs := rfl
@[simp] theorem State.putFrame_readData : (s.putFrame k bytes mark).readData = s.readData := rfl
@[simp] theorem State.putFrame_cmdWord : (s.putFrame k bytes mark).cmdWord = s.cmdWord := rfl
@[simp] theorem State.putFrame_draws : (s.putFrame k bytes mark).draws = s.draws := rfl

end

section
variable (s : State)

@[simp] theorem State.clearFrame_regs : (s.clearFrame).regs = s.regs := rfl
@[simp] theorem State.clearFrame_frameSealed : (s.clearFrame).frameSealed = false := rfl
@[simp] theorem State.clearFrame_rateValid : (s.clearFrame).rateValid = s.rateValid := rfl
@[simp] theorem State.clearFrame_power : (s.clearFrame).power = s.power := rfl
@[simp] theorem State.clearFrame_ill : (s.clearFrame).ill = s.ill := rfl
@[simp] theorem State.clearFrame_errCmd : (s.clearFrame).errCmd = s.errCmd := rfl
@[simp] theorem State.clearFrame_condEn : (s.clearFrame).condEn = s.condEn := rfl
@[simp] theorem State.clearFrame_hotTh : (s.clearFrame).hotTh = s.hotTh := rfl
@[simp] theorem State.clearFrame_coldTh : (s.clearFrame).coldTh = s.coldTh := rfl
@[simp] theorem State.clearFrame_vmin : (s.clearFrame).vmin = s.vmin := rfl
@[simp] theorem State.clearFrame_evalPeriod : (s.clearFrame).evalPeriod = s.evalPeriod := rfl
@[simp] theorem State.clearFrame_sampleMin : (s.clearFrame).sampleMin = s.sampleMin := rfl
@[simp] theorem State.clearFrame_rptPeriod : (s.clearFrame).rptPeriod = s.rptPeriod := rfl
@[simp] theorem State.clearFrame_nowMs : (s.clearFrame).nowMs = s.nowMs := rfl
@[simp] theorem State.clearFrame_edgeCnt : (s.clearFrame).edgeCnt = s.edgeCnt := rfl
@[simp] theorem State.clearFrame_edgePrev : (s.clearFrame).edgePrev = s.edgePrev := rfl
@[simp] theorem State.clearFrame_lastSample : (s.clearFrame).lastSample = s.lastSample := rfl
@[simp] theorem State.clearFrame_rate : (s.clearFrame).rate = s.rate := rfl
@[simp] theorem State.clearFrame_lastEval : (s.clearFrame).lastEval = s.lastEval := rfl
@[simp] theorem State.clearFrame_forceRemain : (s.clearFrame).forceRemain = s.forceRemain := rfl
@[simp] theorem State.clearFrame_forceTier : (s.clearFrame).forceTier = s.forceTier := rfl
@[simp] theorem State.clearFrame_mem :
    (s.clearFrame).mem = s.mem.writeBytes (frameBase + 0) (clearedFrame s.condEn) := rfl
@[simp] theorem State.clearFrame_fmtLen : (s.clearFrame).fmtLen = s.fmtLen := rfl
@[simp] theorem State.clearFrame_inputs : (s.clearFrame).inputs = s.inputs := rfl
@[simp] theorem State.clearFrame_readData : (s.clearFrame).readData = s.readData := rfl
@[simp] theorem State.clearFrame_cmdWord : (s.clearFrame).cmdWord = s.cmdWord := rfl
@[simp] theorem State.clearFrame_draws : (s.clearFrame).draws = s.draws := rfl

end

section
variable (s : State) (text : List Byte)

@[simp] theorem State.putText_regs : (s.putText text).regs = s.regs := rfl
@[simp] theorem State.putText_frameSealed : (s.putText text).frameSealed = s.frameSealed := rfl
@[simp] theorem State.putText_rateValid : (s.putText text).rateValid = s.rateValid := rfl
@[simp] theorem State.putText_power : (s.putText text).power = s.power := rfl
@[simp] theorem State.putText_ill : (s.putText text).ill = s.ill := rfl
@[simp] theorem State.putText_errCmd : (s.putText text).errCmd = s.errCmd := rfl
@[simp] theorem State.putText_condEn : (s.putText text).condEn = s.condEn := rfl
@[simp] theorem State.putText_hotTh : (s.putText text).hotTh = s.hotTh := rfl
@[simp] theorem State.putText_coldTh : (s.putText text).coldTh = s.coldTh := rfl
@[simp] theorem State.putText_vmin : (s.putText text).vmin = s.vmin := rfl
@[simp] theorem State.putText_evalPeriod : (s.putText text).evalPeriod = s.evalPeriod := rfl
@[simp] theorem State.putText_sampleMin : (s.putText text).sampleMin = s.sampleMin := rfl
@[simp] theorem State.putText_rptPeriod : (s.putText text).rptPeriod = s.rptPeriod := rfl
@[simp] theorem State.putText_nowMs : (s.putText text).nowMs = s.nowMs := rfl
@[simp] theorem State.putText_edgeCnt : (s.putText text).edgeCnt = s.edgeCnt := rfl
@[simp] theorem State.putText_edgePrev : (s.putText text).edgePrev = s.edgePrev := rfl
@[simp] theorem State.putText_lastSample : (s.putText text).lastSample = s.lastSample := rfl
@[simp] theorem State.putText_rate : (s.putText text).rate = s.rate := rfl
@[simp] theorem State.putText_lastEval : (s.putText text).lastEval = s.lastEval := rfl
@[simp] theorem State.putText_forceRemain : (s.putText text).forceRemain = s.forceRemain := rfl
@[simp] theorem State.putText_forceTier : (s.putText text).forceTier = s.forceTier := rfl
@[simp] theorem State.putText_mem :
    (s.putText text).mem = s.mem.writeBytes fmtBase ((List.range 16).map fun k => text.getD k 0) := rfl
@[simp] theorem State.putText_fmtLen : (s.putText text).fmtLen = BitVec.ofNat 5 text.length := rfl
@[simp] theorem State.putText_inputs : (s.putText text).inputs = s.inputs := rfl
@[simp] theorem State.putText_readData : (s.putText text).readData = s.readData := rfl
@[simp] theorem State.putText_cmdWord : (s.putText text).cmdWord = s.cmdWord := rfl
@[simp] theorem State.putText_draws : (s.putText text).draws = s.draws := rfl

end

section
variable (s : State)

@[simp] theorem State.raiseIllegal_regs : (s.raiseIllegal).regs = s.regs := rfl
@[simp] theorem State.raiseIllegal_frameSealed : (s.raiseIllegal).frameSealed = s.frameSealed := rfl
@[simp] theorem State.raiseIllegal_rateValid : (s.raiseIllegal).rateValid = s.rateValid := rfl
@[simp] theorem State.raiseIllegal_power : (s.raiseIllegal).power = s.power := rfl
@[simp] theorem State.raiseIllegal_ill : (s.raiseIllegal).ill = true := rfl
@[simp] theorem State.raiseIllegal_errCmd : (s.raiseIllegal).errCmd = s.cmdWord := rfl
@[simp] theorem State.raiseIllegal_condEn : (s.raiseIllegal).condEn = s.condEn := rfl
@[simp] theorem State.raiseIllegal_hotTh : (s.raiseIllegal).hotTh = s.hotTh := rfl
@[simp] theorem State.raiseIllegal_coldTh : (s.raiseIllegal).coldTh = s.coldTh := rfl
@[simp] theorem State.raiseIllegal_vmin : (s.raiseIllegal).vmin = s.vmin := rfl
@[simp] theorem State.raiseIllegal_evalPeriod : (s.raiseIllegal).evalPeriod = s.evalPeriod := rfl
@[simp] theorem State.raiseIllegal_sampleMin : (s.raiseIllegal).sampleMin = s.sampleMin := rfl
@[simp] theorem State.raiseIllegal_rptPeriod : (s.raiseIllegal).rptPeriod = s.rptPeriod := rfl
@[simp] theorem State.raiseIllegal_nowMs : (s.raiseIllegal).nowMs = s.nowMs := rfl
@[simp] theorem State.raiseIllegal_edgeCnt : (s.raiseIllegal).edgeCnt = s.edgeCnt := rfl
@[simp] theorem State.raiseIllegal_edgePrev : (s.raiseIllegal).edgePrev = s.edgePrev := rfl
@[simp] theorem State.raiseIllegal_lastSample : (s.raiseIllegal).lastSample = s.lastSample := rfl
@[simp] theorem State.raiseIllegal_rate : (s.raiseIllegal).rate = s.rate := rfl
@[simp] theorem State.raiseIllegal_lastEval : (s.raiseIllegal).lastEval = s.lastEval := rfl
@[simp] theorem State.raiseIllegal_forceRemain : (s.raiseIllegal).forceRemain = s.forceRemain := rfl
@[simp] theorem State.raiseIllegal_forceTier : (s.raiseIllegal).forceTier = s.forceTier := rfl
@[simp] theorem State.raiseIllegal_mem : (s.raiseIllegal).mem = s.mem := rfl
@[simp] theorem State.raiseIllegal_fmtLen : (s.raiseIllegal).fmtLen = s.fmtLen := rfl
@[simp] theorem State.raiseIllegal_inputs : (s.raiseIllegal).inputs = s.inputs := rfl
@[simp] theorem State.raiseIllegal_readData : (s.raiseIllegal).readData = s.readData := rfl
@[simp] theorem State.raiseIllegal_cmdWord : (s.raiseIllegal).cmdWord = s.cmdWord := rfl
@[simp] theorem State.raiseIllegal_draws : (s.raiseIllegal).draws = s.draws := rfl

end

section
variable (s : State)

@[simp] theorem State.acknowledgeIllegal_regs : (s.acknowledgeIllegal).regs = s.regs := rfl
@[simp] theorem State.acknowledgeIllegal_frameSealed :
    (s.acknowledgeIllegal).frameSealed = s.frameSealed := rfl
@[simp] theorem State.acknowledgeIllegal_rateValid :
    (s.acknowledgeIllegal).rateValid = s.rateValid := rfl
@[simp] theorem State.acknowledgeIllegal_power : (s.acknowledgeIllegal).power = s.power := rfl
@[simp] theorem State.acknowledgeIllegal_ill : (s.acknowledgeIllegal).ill = false := rfl
@[simp] theorem State.acknowledgeIllegal_errCmd : (s.acknowledgeIllegal).errCmd = s.errCmd := rfl
@[simp] theorem State.acknowledgeIllegal_condEn : (s.acknowledgeIllegal).condEn = s.condEn := rfl
@[simp] theorem State.acknowledgeIllegal_hotTh : (s.acknowledgeIllegal).hotTh = s.hotTh := rfl
@[simp] theorem State.acknowledgeIllegal_coldTh : (s.acknowledgeIllegal).coldTh = s.coldTh := rfl
@[simp] theorem State.acknowledgeIllegal_vmin : (s.acknowledgeIllegal).vmin = s.vmin := rfl
@[simp] theorem State.acknowledgeIllegal_evalPeriod :
    (s.acknowledgeIllegal).evalPeriod = s.evalPeriod := rfl
@[simp] theorem State.acknowledgeIllegal_sampleMin :
    (s.acknowledgeIllegal).sampleMin = s.sampleMin := rfl
@[simp] theorem State.acknowledgeIllegal_rptPeriod :
    (s.acknowledgeIllegal).rptPeriod = s.rptPeriod := rfl
@[simp] theorem State.acknowledgeIllegal_nowMs : (s.acknowledgeIllegal).nowMs = s.nowMs := rfl
@[simp] theorem State.acknowledgeIllegal_edgeCnt : (s.acknowledgeIllegal).edgeCnt = s.edgeCnt := rfl
@[simp] theorem State.acknowledgeIllegal_edgePrev :
    (s.acknowledgeIllegal).edgePrev = s.edgePrev := rfl
@[simp] theorem State.acknowledgeIllegal_lastSample :
    (s.acknowledgeIllegal).lastSample = s.lastSample := rfl
@[simp] theorem State.acknowledgeIllegal_rate : (s.acknowledgeIllegal).rate = s.rate := rfl
@[simp] theorem State.acknowledgeIllegal_lastEval :
    (s.acknowledgeIllegal).lastEval = s.lastEval := rfl
@[simp] theorem State.acknowledgeIllegal_forceRemain :
    (s.acknowledgeIllegal).forceRemain = s.forceRemain := rfl
@[simp] theorem State.acknowledgeIllegal_forceTier :
    (s.acknowledgeIllegal).forceTier = s.forceTier := rfl
@[simp] theorem State.acknowledgeIllegal_mem : (s.acknowledgeIllegal).mem = s.mem := rfl
@[simp] theorem State.acknowledgeIllegal_fmtLen : (s.acknowledgeIllegal).fmtLen = s.fmtLen := rfl
@[simp] theorem State.acknowledgeIllegal_inputs : (s.acknowledgeIllegal).inputs = s.inputs := rfl
@[simp] theorem State.acknowledgeIllegal_readData :
    (s.acknowledgeIllegal).readData = s.readData := rfl
@[simp] theorem State.acknowledgeIllegal_cmdWord : (s.acknowledgeIllegal).cmdWord = s.cmdWord := rfl
@[simp] theorem State.acknowledgeIllegal_draws : (s.acknowledgeIllegal).draws = s.draws := rfl

end

/-- Reading a register after writing one. -/
theorem State.reg_setReg (s : State) (r q : Reg) (v : Word) :
    (s.setReg r v).reg q = if q = r then v else s.reg q := by
  simp only [State.reg, State.setReg_regs, Vector.getElem_set, Fin.ext_iff, eq_comm]

@[simp] theorem State.reg_setReg_same (s : State) (r : Reg) (v : Word) :
    (s.setReg r v).reg r = v := by simp [State.reg_setReg]

theorem State.reg_setReg_other (s : State) (r q : Reg) (v : Word) (h : q ≠ r) :
    (s.setReg r v).reg q = s.reg q := by simp [State.reg_setReg, h]

@[simp] theorem State.reg_putFrame (s : State) (k : Nat) (bytes : List Byte) (mark : Bool) (r : Reg) :
    (s.putFrame k bytes mark).reg r = s.reg r := rfl

@[simp] theorem State.reg_clearFrame (s : State) (r : Reg) : s.clearFrame.reg r = s.reg r := rfl

@[simp] theorem State.reg_putText (s : State) (text : List Byte) (r : Reg) :
    (s.putText text).reg r = s.reg r := rfl

@[simp] theorem State.reg_raiseIllegal (s : State) (r : Reg) : s.raiseIllegal.reg r = s.reg r := rfl

@[simp] theorem State.frameByte_setReg (s : State) (r : Reg) (v : Word) (k : Nat) :
    (s.setReg r v).frameByte k = s.frameByte k := rfl

@[simp] theorem State.frameCrc_setReg (s : State) (r : Reg) (v : Word) :
    (s.setReg r v).frameCrc = s.frameCrc := rfl

@[simp] theorem State.frameLen_setReg (s : State) (r : Reg) (v : Word) :
    (s.setReg r v).frameLen = s.frameLen := rfl

@[simp] theorem State.frameLen_putFrame (s : State) (k : Nat) (bytes : List Byte) (mark : Bool) :
    (s.putFrame k bytes mark).frameLen = s.frameLen := rfl

end Sys2Proof.Machine
end

