-- ==== Sys2Proof/Laws/Ops.lean ====
section
/-! SUPPORT. Laws/Ops.lean: what each shared operation on the frame, the format buffer and the
exception does, once, seen through the reads of one byte. -/

namespace Sys2Proof.Machine

/-- FRAME after a frame write. -/
theorem State.frameByte_putFrame (s : State) (k : Nat) (bytes : List Byte) (mark : Bool) (j : Nat) :
    (s.putFrame k bytes mark).frameByte j =
      if k ≤ j ∧ j < k + bytes.length then bytes.getD (j - k) 0 else s.frameByte j := by
  simp only [State.frameByte, State.putFrame_mem, Memory.read_writeBytes]
  by_cases h : k ≤ j ∧ j < k + bytes.length
  · rw [if_pos h, if_pos (by omega), Nat.add_sub_add_left]
  · rw [if_neg h, if_neg (by omega)]

/-- FMTBUF after a frame write. -/
theorem State.fmtByte_putFrame (s : State) (k : Nat) (bytes : List Byte) (mark : Bool) (j : Nat)
    (h : j < 16) : (s.putFrame k bytes mark).fmtByte j = s.fmtByte j := by
  simp only [State.fmtByte, State.putFrame_mem]
  exact Memory.read_writeBytes_outside _ _ _ _ (by simp [fmtBase, frameBase]; omega)

@[simp] theorem clearedFrame_length (condEn : Bool) : (clearedFrame condEn).length = 16 := by
  cases condEn <;> decide

/-- FRAME after FCLR's effect (R161). -/
theorem State.frameByte_clearFrame (s : State) (j : Nat) (h : j < 16) :
    s.clearFrame.frameByte j = (clearedFrame s.condEn).getD j 0 := by
  simp [State.clearFrame, State.frameByte_putFrame, h]

/-- FMTBUF after FCLR's effect. -/
theorem State.fmtByte_clearFrame (s : State) (j : Nat) (h : j < 16) :
    s.clearFrame.fmtByte j = s.fmtByte j := s.fmtByte_putFrame _ _ _ _ h

/-- The bytes of FMTBUF and a text shorter than it. -/
theorem textBytes_length (text : List Byte) :
    ((List.range 16).map fun k => text.getD k 0).length = 16 := by simp

/-- FMTBUF after FMT's effect (R146). -/
theorem State.fmtByte_putText (s : State) (text : List Byte) (j : Nat) (h : j < 16) :
    (s.putText text).fmtByte j = text.getD j 0 := by
  simp only [State.fmtByte, State.putText_mem]
  rw [Memory.read_writeBytes_inside _ _ _ _ (by simpa using h)]
  simp [List.getD_eq_getElem?_getD, h]

/-- FRAME after FMT's effect. -/
theorem State.frameByte_putText (s : State) (text : List Byte) (j : Nat) :
    (s.putText text).frameByte j = s.frameByte j := by
  simp only [State.frameByte, State.putText_mem]
  exact Memory.read_writeBytes_outside _ _ _ _ (by simp [fmtBase, frameBase])

/-- Two states with the same layout and the same covered bytes have the same CRC (R162). -/
theorem State.frameCrc_congr {s t : State} (hc : t.condEn = s.condEn)
    (h : ∀ k, k < s.frameLen - 1 → t.frameByte k = s.frameByte k) : t.frameCrc = s.frameCrc := by
  have hl : t.frameLen = s.frameLen := by simp [State.frameLen, hc]
  unfold State.frameCrc
  rw [hl]
  exact congrArg crc8 (List.map_congr_left fun k hk => h k (List.mem_range.1 hk))

/-- A frame write inside FRAME keeps the canonical form. -/
theorem State.wf_putFrame (s : State) (k : Nat) (bytes : List Byte) (mark : Bool) (h : s.mem.wf)
    (hk : k + bytes.length ≤ 16) : (s.putFrame k bytes mark).mem.wf :=
  Memory.wf_writeBytes _ _ _ h (by simp [fmtBase, frameBase]; omega) (by omega)

/-- FCLR's effect keeps the canonical form. -/
theorem State.wf_clearFrame (s : State) (h : s.mem.wf) : s.clearFrame.mem.wf :=
  s.wf_putFrame _ _ _ h (by simp)

/-- FMT's effect keeps the canonical form. -/
theorem State.wf_putText (s : State) (text : List Byte) (h : s.mem.wf) : (s.putText text).mem.wf :=
  Memory.wf_writeBytes _ _ _ h le_rfl (by simp [fmtBase, frameBase])

/-- The memory after reset is canonical. -/
theorem State.wf_reset : State.reset.mem.wf := Memory.wf_nil

theorem layoutLen_pos (condEn : Bool) : 0 < layoutLen condEn := by cases condEn <;> decide

theorem layoutLen_le (condEn : Bool) : layoutLen condEn ≤ 15 := by cases condEn <;> decide

@[simp] theorem littleEndian_length (n : Nat) (v : Word) : (littleEndian n v).length = n := by
  induction n generalizing v with
  | zero => rfl
  | succ n ih => simp [littleEndian, ih]

/-- Every field present in a layout ends before the checksum byte (R64). -/
theorem fieldOffset_add_size_lt (condEn : Bool) (f : Field) :
    f.offset condEn + f.size < layoutLen condEn := by
  cases condEn <;> cases f <;> decide

/-- The offsets of R64 are where serialization in order puts the fields. -/
theorem presentFields_offsets (condEn : Bool) :
    (presentFields condEn).map (Field.offset condEn) =
      (List.range (presentFields condEn).length).map fun k =>
        (((presentFields condEn).take k).map Field.size).sum := by
  cases condEn <;> decide

end Sys2Proof.Machine
end

