-- ==== Sys2Proof/Laws/Containers.lean ====
section
/-! SUPPORT. Laws/Containers.lean: the containers commands write: canonical, and equal in their low w
bits to the integer written (R12, R24). -/

namespace Sys2Proof

theorem setWidth_signExtend {w v : Nat} (x : BitVec w) (h : w ≤ v) :
    (x.signExtend v).setWidth w = x := by
  apply BitVec.eq_of_getLsbD_eq
  intro k hk
  rw [BitVec.getLsbD_setWidth, BitVec.getLsbD_signExtend]
  simp [hk, show k < v by omega]

/-- The low w bits of a written container. -/
theorem FxTy.setWidth_canon (t : FxTy) (x : Int) :
    (t.canon x).setWidth t.width = BitVec.ofInt t.width x := by
  have hw : t.width ≤ 32 := t.int.width_le
  unfold FxTy.canon
  split
  · exact setWidth_signExtend _ hw
  · rw [BitVec.setWidth_setWidth_of_le _ hw, BitVec.setWidth_eq]

/-- A written container is canonical (R24). -/
theorem FxTy.canonical_canon (t : FxTy) (x : Int) : t.canonical (t.canon x) := by
  unfold FxTy.canonical
  rw [t.setWidth_canon]
  rfl

/-- The low w bits of a container, from its value. -/
theorem FxTy.ofInt_val (t : FxTy) (r : Word) :
    BitVec.ofInt t.width (t.val r) = r.setWidth t.width := by
  unfold FxTy.val
  split
  · exact BitVec.ofInt_toInt
  · rw [BitVec.ofInt_natCast, BitVec.ofNat_toNat, BitVec.setWidth_eq]

/-- An arithmetic result is canonical, and for valid operands its value is the exact result through
fit_T (R127, R128). -/
theorem FxTy.arith_spec (t : FxTy) (a b z : Int) :
    t.canonical (t.arith a b z) ∧
      (a ≠ t.minT → b ≠ t.minT → t.val (t.arith a b z) = t.fit z) := by
  constructor
  · unfold FxTy.arith FxTy.inv
    split <;> exact t.canonical_canon _
  · intro ha hb
    rw [t.arith_valid _ _ _ ha hb, t.val_canon_fit]

namespace Machine

/-- The frame of a register write. -/
theorem changesOnlyReg_setReg (s : State) (rd : Reg) (v : Word) :
    changesOnlyReg rd s (s.setReg rd v) :=
  ⟨fun r h => State.reg_setReg_other s rd r v h, fun _ => rfl, rfl⟩

/-- The frame of a frame write. -/
theorem changesOnlyFrame_putFrame (s : State) (k : Nat) (bytes : List Byte) (mark : Bool) :
    changesOnlyFrame k bytes.length s (s.putFrame k bytes mark) :=
  ⟨fun _ => rfl, fun a h => Memory.read_writeBytes_outside bytes s.mem _ a h, rfl⟩

end Machine

end Sys2Proof
end

