-- ==== Sys2Proof/Laws/Decode.lean ====
section
/-! SUPPORT. Laws/Decode.lean: what packing and unpacking the fields of a command word do, once. -/

namespace Sys2Proof

/-- The bits of a placed field. -/
theorem getLsbD_bitsAt {n : Nat} (lo : Nat) (v : BitVec n) (i : Nat) :
    (bitsAt lo v).getLsbD i = (decide (i < 32) && decide (lo ≤ i) && v.getLsbD (i - lo)) := by
  by_cases h : lo ≤ i <;> by_cases h2 : i < 32 <;>
    simp [bitsAt, BitVec.getLsbD_shiftLeft, h, h2, Nat.not_lt.2, Nat.lt_of_not_le]

/-- Unpacking a packed word gives the fields back (R91). -/
@[simp] theorem CmdFields.ofWord_toWord (f : CmdFields) : CmdFields.ofWord f.toWord = f := by
  obtain ⟨op, rd, ra, rb, rc, re, ty, dec, imm5⟩ := f
  simp only [CmdFields.ofWord, CmdFields.toWord, CmdFields.mk.injEq]
  refine ⟨?_, ?_, ?_, ?_, ?_, ?_, ?_, ?_, ?_⟩ <;>
    (apply BitVec.eq_of_getLsbD_eq
     intro i hi
     simp only [BitVec.getLsbD_extractLsb', BitVec.getLsbD_or, getLsbD_bitsAt]
     interval_cases i <;> simp)

/-- Packing the fields of a word gives the word back (R91). -/
@[simp] theorem CmdFields.toWord_ofWord (w : Word) : (CmdFields.ofWord w).toWord = w := by
  apply BitVec.eq_of_getLsbD_eq
  intro i hi
  simp only [CmdFields.ofWord, CmdFields.toWord, BitVec.getLsbD_or, getLsbD_bitsAt,
    BitVec.getLsbD_extractLsb']
  interval_cases i <;> simp

@[simp] theorem regOf_regBits (r : Reg) : regOf (regBits r) = r := rfl

@[simp] theorem IntTy.ofCode_code (i : IntTy) : IntTy.ofCode i.code = some i := by cases i <;> rfl

@[simp] theorem Decimals.ofBit_bit (d : Decimals) : Decimals.ofBit d.bit = d := by cases d <;> rfl

@[simp] theorem Field.ofIndex_index (f : Field) : Field.ofIndex f.index = some f := by cases f <;> rfl

/-- Decoding an encoded command decodes its fields. -/
theorem decode_encode_fields (i : Instr) : decode (encode i) = decodeFields (encodeFields i) := by
  simp [decode, encode]

end Sys2Proof
end

