-- ==== Sys2Proof/Laws/PerInstr.lean ====
section
/-! SUPPORT. Laws/PerInstr.lean: the family OpcodeByte: bits 31:24 of every command's word are the
opcode R95 assigns to it. -/

namespace Sys2Proof.Laws.OpcodeByte

/-- The opcode of a command (R95). -/
def opcode : Instr → BitVec 8
  | .nop => 0x00
  | .inval _ _ => 0x01
  | .fromRaw _ _ _ => 0x02
  | .fromReal _ _ _ => 0x03
  | .isValid _ _ _ => 0x04
  | .add _ _ _ _ => 0x08
  | .sub _ _ _ _ => 0x09
  | .mul _ _ _ _ => 0x0A
  | .div _ _ _ _ => 0x0B
  | .cmpLt _ _ _ _ => 0x10
  | .cmpLe _ _ _ _ => 0x11
  | .cmpGt _ _ _ _ => 0x12
  | .cmpGe _ _ _ _ => 0x13
  | .cmpEq _ _ _ _ => 0x14
  | .cmpNe _ _ _ _ => 0x15
  | .fmt _ _ _ _ _ => 0x18
  | .fclr => 0x20
  | .fseal => 0x21
  | .fverify _ => 0x22
  | .fset _ _ _ => 0x23
  | .fget _ _ _ => 0x24
  | .ppoll _ => 0x30
  | .prate _ => 0x31
  | .classify _ _ _ _ _ _ => 0x38
  | .ftick _ _ _ => 0x39
  | .fpress => 0x3A

/-- Bits 31:24 of a command's word are its opcode. -/
def Statement (i : Instr) : Prop := (encode i).extractLsb' 24 8 = opcode i

theorem of_fields (i : Instr) (h : (encodeFields i).op = opcode i) : Statement i := by
  have := congrArg CmdFields.op (CmdFields.ofWord_toWord (encodeFields i))
  rw [h] at this
  exact this

theorem nop : Statement (.nop) :=
  of_fields _ rfl

theorem inval (t : FxTy) (rd : Reg) : Statement (.inval t rd) :=
  of_fields _ rfl

theorem fromRaw (t : FxTy) (rd : Reg) (ra : Reg) : Statement (.fromRaw t rd ra) :=
  of_fields _ rfl

theorem fromReal (t : FxTy) (rd : Reg) (ra : Reg) : Statement (.fromReal t rd ra) :=
  of_fields _ rfl

theorem isValid (t : FxTy) (rd : Reg) (ra : Reg) : Statement (.isValid t rd ra) :=
  of_fields _ rfl

theorem add (t : FxTy) (rd : Reg) (ra : Reg) (rb : Reg) : Statement (.add t rd ra rb) :=
  of_fields _ rfl

theorem sub (t : FxTy) (rd : Reg) (ra : Reg) (rb : Reg) : Statement (.sub t rd ra rb) :=
  of_fields _ rfl

theorem mul (t : FxTy) (rd : Reg) (ra : Reg) (rb : Reg) : Statement (.mul t rd ra rb) :=
  of_fields _ rfl

theorem div (t : FxTy) (rd : Reg) (ra : Reg) (rb : Reg) : Statement (.div t rd ra rb) :=
  of_fields _ rfl

theorem cmpLt (t : FxTy) (rd : Reg) (ra : Reg) (rb : Reg) : Statement (.cmpLt t rd ra rb) :=
  of_fields _ rfl

theorem cmpLe (t : FxTy) (rd : Reg) (ra : Reg) (rb : Reg) : Statement (.cmpLe t rd ra rb) :=
  of_fields _ rfl

theorem cmpGt (t : FxTy) (rd : Reg) (ra : Reg) (rb : Reg) : Statement (.cmpGt t rd ra rb) :=
  of_fields _ rfl

theorem cmpGe (t : FxTy) (rd : Reg) (ra : Reg) (rb : Reg) : Statement (.cmpGe t rd ra rb) :=
  of_fields _ rfl

theorem cmpEq (t : FxTy) (rd : Reg) (ra : Reg) (rb : Reg) : Statement (.cmpEq t rd ra rb) :=
  of_fields _ rfl

theorem cmpNe (t : FxTy) (rd : Reg) (ra : Reg) (rb : Reg) : Statement (.cmpNe t rd ra rb) :=
  of_fields _ rfl

theorem fmt (t : FxTy) (ra : Reg) (width : Fin 32) (left : Bool) (plus : Bool) : Statement (.fmt t ra width left plus) :=
  of_fields _ rfl

theorem fclr : Statement (.fclr) :=
  of_fields _ rfl

theorem fseal : Statement (.fseal) :=
  of_fields _ rfl

theorem fverify (rd : Reg) : Statement (.fverify rd) :=
  of_fields _ rfl

theorem fset (t : FxTy) (field : Field) (ra : Reg) : Statement (.fset t field ra) :=
  of_fields _ rfl

theorem fget (t : FxTy) (rd : Reg) (field : Field) : Statement (.fget t rd field) :=
  of_fields _ rfl

theorem ppoll (rd : Reg) : Statement (.ppoll rd) :=
  of_fields _ rfl

theorem prate (rd : Reg) : Statement (.prate rd) :=
  of_fields _ rfl

theorem classify (t : FxTy) (rd : Reg) (ra : Reg) (rb : Reg) (rc : Reg) (re : Reg) : Statement (.classify t rd ra rb rc re) :=
  of_fields _ rfl

theorem ftick (t : FxTy) (ra : Reg) (rb : Reg) : Statement (.ftick t ra rb) :=
  of_fields _ rfl

theorem fpress : Statement (.fpress) :=
  of_fields _ rfl

end Sys2Proof.Laws.OpcodeByte
end

