-- ==== Sys2Proof/Laws/Step.lean ====
section
/-! SUPPORT. Laws/Step.lean: what a command and what a step can do, once, as cases that later proofs
cite instead of unfolding the meanings. -/

namespace Sys2Proof.Machine

/-- Every way a command can change the state. -/
inductive CommandEffect (s : State) : State → Prop where
  | nothing : CommandEffect s s
  | writesReg (rd : Reg) (v : Word) : CommandEffect s (s.setReg rd v)
  | raises : CommandEffect s s.raiseIllegal
  | formats (text : List Byte) (h : text.length ≤ 16) : CommandEffect s (s.putText text)
  | clears : CommandEffect s s.clearFrame
  | seals : CommandEffect s (s.putFrame (s.frameLen - 1) [s.frameCrc] true)
  | verifies (rd : Reg) (h : s.frameCrc = s.frameByte (s.frameLen - 1)) :
    CommandEffect s ({ s with frameSealed := true }.setReg rd 1)
  | rejects (rd : Reg) : CommandEffect s (s.clearFrame.setReg rd 0)
  | stores (k : Nat) (bytes : List Byte) (h : k + bytes.length < s.frameLen) :
    CommandEffect s (s.putFrame k bytes false)
  | samples (rd : Reg) (rate : Word) :
    CommandEffect s
      ({ s with edgeCnt := 0, rate := rate, rateValid := true, lastSample := s.nowMs }.setReg rd 1)
  | forces : CommandEffect s { s with power := true }
  | evaluates (on : Bool) : CommandEffect s { s with power := on, lastEval := s.nowMs }
  | presses :
    CommandEffect s
      { s with
        forceTier := BitVec.ofNat 3 ((s.forceTier.toNat + 1) % 6)
        forceRemain := ladderMs.getD ((s.forceTier.toNat + 1) % 6) 0 }

@[simp] theorem fieldBytes_length (field : Field) (v : Word) :
    (fieldBytes field v).length = field.size := by
  cases field <;> rfl

/-- A command answers a next state, by one of the effects above. -/
theorem exec_effect (i : Instr) (s : State) : ∃ t, exec i s = .next t ∧ CommandEffect s t := by
  cases i with
  | nop => exact ⟨_, rfl, .nothing⟩
  | fmt t ra width left plus =>
    by_cases h : 16 < width.val
    · exact ⟨_, if_pos h, .raises⟩
    · exact ⟨_, if_neg h,
        .formats _ (fmtText_length_le _ _ _ _ _ (by omega))⟩
  | fclr => exact ⟨_, rfl, .clears⟩
  | fseal => exact ⟨_, rfl, .seals⟩
  | fverify rd =>
    by_cases h : s.frameCrc = s.frameByte (s.frameLen - 1)
    · exact ⟨_, if_pos h, .verifies rd h⟩
    · exact ⟨_, if_neg h, .rejects rd⟩
  | fset t field ra =>
    by_cases h : s.fieldIllegal t field = true
    · exact ⟨_, if_pos h, .raises⟩
    · exact ⟨_, if_neg h,
        .stores _ _ (by rw [fieldBytes_length]; exact fieldOffset_add_size_lt s.condEn field)⟩
  | fget t rd field =>
    by_cases h : s.fieldIllegal t field = true
    · exact ⟨_, if_pos h, .raises⟩
    · exact ⟨_, if_neg h, .writesReg _ _⟩
  | ppoll rd =>
    by_cases h : s.elapsed s.lastSample < s.sampleMin ∨ s.elapsed s.lastSample = 0
    · exact ⟨_, if_pos h, .writesReg _ _⟩
    · exact ⟨_, if_neg h, .samples rd _⟩
  | ftick t ra rb =>
    by_cases h : s.forceRemain ≠ 0
    · exact ⟨_, if_pos h, .forces⟩
    · by_cases h2 : s.elapsed s.lastEval < s.evalPeriod
      · exact ⟨_, (if_neg h).trans (if_pos h2), .nothing⟩
      · exact ⟨_, (if_neg h).trans (if_neg h2), .evaluates _⟩
  | fpress => exact ⟨_, rfl, .presses⟩
  | _ => exact ⟨_, rfl, .writesReg _ _⟩

/-- What a command that answered did. -/
theorem exec_cases {i : Instr} {s t : State} (h : exec i s = .next t) : CommandEffect s t := by
  obtain ⟨u, hu, he⟩ := exec_effect i s
  rw [hu] at h
  cases h
  exact he

/-- Every way one host access can change the state. -/
inductive HostEffect (s : State) : State → Prop where
  | reads (v : Word) : HostEffect s { s with readData := v }
  | ignored : HostEffect s s
  | command (word : Word) (t : State) (h : CommandEffect { s with cmdWord := word } t) : HostEffect s t
  | acknowledges : HostEffect s s.acknowledgeIllegal
  | relayouts (c : Bool) : HostEffect s { s with condEn := c }.clearFrame
  | writesReg (r : Reg) (v : Word) : HostEffect s (s.setReg r v)
  | writesHotTh (v : Word) : HostEffect s { s with hotTh := v }
  | writesColdTh (v : Word) : HostEffect s { s with coldTh := v }
  | writesVmin (v : Word) : HostEffect s { s with vmin := v }
  | writesEvalPeriod (v : Word) : HostEffect s { s with evalPeriod := v }
  | writesSampleMin (v : Word) : HostEffect s { s with sampleMin := v }
  | writesRptPeriod (v : BitVec 16) : HostEffect s { s with rptPeriod := v }
  | writesFrame (q : Fin 4) (data : Word) (be : BitVec 4) :
    HostEffect s (s.writeFrameWord q.val data be)

/-- A command word answers a next state, by a command's effect. -/
theorem runCommand_effect (word : Word) (s : State) :
    ∃ t, runCommand word s = .next t ∧ CommandEffect { s with cmdWord := word } t := by
  unfold runCommand
  cases decode word with
  | ok i => exact exec_effect i _
  | error r => exact ⟨_, rfl, .raises⟩

theorem writeReg_effect (s : State) (r : HostReg) (data : Word) (be : BitVec 4) :
    ∃ t, s.writeReg r data be = .next t ∧ HostEffect s t := by
  cases r with
  | cmd =>
    obtain ⟨t, ht, he⟩ := runCommand_effect data s
    exact ⟨t, ht, .command data t he⟩
  | status =>
    refine ⟨_, rfl, ?_⟩
    unfold State.writeStatus
    split
    · exact .acknowledges
    · exact .ignored
  | ctrl =>
    refine ⟨_, rfl, ?_⟩
    unfold State.writeCtrl
    split
    · exact .ignored
    · exact .relayouts _
  | operand i => exact ⟨_, rfl, .writesReg _ _⟩
  | hotTh => exact ⟨_, rfl, .writesHotTh _⟩
  | coldTh => exact ⟨_, rfl, .writesColdTh _⟩
  | vmin => exact ⟨_, rfl, .writesVmin _⟩
  | evalPeriod => exact ⟨_, rfl, .writesEvalPeriod _⟩
  | sampleMin => exact ⟨_, rfl, .writesSampleMin _⟩
  | rptPeriod => exact ⟨_, rfl, .writesRptPeriod _⟩
  | frame q => exact ⟨_, rfl, .writesFrame q _ _⟩
  | _ => exact ⟨_, rfl, .ignored⟩

/-- A host access answers a next state, by one of the effects above. -/
theorem hostStep_effect (access : HostAccess) (s : State) :
    ∃ t, hostStep access s = .next t ∧ HostEffect s t := by
  cases access with
  | read addr => exact ⟨_, rfl, .reads _⟩
  | write addr data be =>
    by_cases h : ((hostReg addr).isFrame || be == 0xF) = true
    · simp only [hostStep, State.hostWrite, if_pos h]
      exact writeReg_effect s _ data be
    · exact ⟨s, by simp only [hostStep, State.hostWrite, if_neg h], .ignored⟩

theorem hostStep_cases {access : HostAccess} {s t : State} (h : hostStep access s = .next t) :
    HostEffect s t := by
  obtain ⟨u, hu, he⟩ := hostStep_effect access s
  rw [hu] at h
  cases h
  exact he

/-- What a step can do: wait; reset; or take an instant's host access (or none), its edge and its
tick. -/
theorem step_cases {s t : State} (h : step s = .next t) :
    (s.inputs = [] ∧ t = s) ∨
    ∃ i rest, s.inputs = i :: rest ∧
      ((i.reset = true ∧ t = { s with inputs := rest }.resetStep) ∨
       (i.reset = false ∧ ∃ u, HostEffect { s with inputs := rest } u ∧ t = u.edgeAndTick i)) := by
  unfold step at h
  cases hi : s.inputs with
  | nil => rw [hi] at h; cases h; exact .inl ⟨rfl, rfl⟩
  | cons i rest =>
    rw [hi] at h
    refine .inr ⟨i, rest, rfl, ?_⟩
    simp only [runInstant] at h
    cases hr : i.reset with
    | true => rw [hr] at h; cases h; exact .inl ⟨rfl, rfl⟩
    | false =>
      rw [hr] at h
      refine .inr ⟨rfl, ?_⟩
      cases hh : i.host with
      | none => rw [hh] at h; cases h; exact ⟨_, .ignored, rfl⟩
      | some access =>
        rw [hh] at h
        obtain ⟨u, hu, he⟩ := hostStep_effect access { s with inputs := rest }
        simp only [hu] at h
        cases h
        exact ⟨u, he, rfl⟩

end Sys2Proof.Machine
end

