-- ==== Sys2Proof/Machine/Assembler.lean ====
section
/-! DEFINITION. Machine/Assembler.lean: the assembler text of a command (R16, R100). -/

namespace Sys2Proof

/-- The name of an integer type (R16). -/
def IntTy.text : IntTy → String
  | .s8 => "s8"
  | .u8 => "u8"
  | .s16 => "s16"
  | .u16 => "u16"
  | .s32 => "s32"
  | .u32 => "u32"

/-- The decimals as type names write them (R16). -/
def Decimals.text : Decimals → String
  | .zero => "0"
  | .one => "1"

/-- A type name, such as s16.1 (R16). -/
def FxTy.text (t : FxTy) : String := t.int.text ++ "." ++ t.dec.text

/-- A frame field's name (R64, R100). -/
def Field.text : Field → String
  | .tin => "TIN"
  | .rhin => "RHIN"
  | .tout => "TOUT"
  | .rhout => "RHOUT"
  | .cond => "COND"
  | .volt => "VOLT"
  | .fan => "FAN"
  | .rpm => "RPM"

/-- r0..r7 (R100). -/
def regText (r : Reg) : String := "r" ++ toString r.val

/-- A mnemonic, its type and its operands separated by commas (R100). -/
def typedText (mnemonic : String) (t : FxTy) (operands : List String) : String :=
  mnemonic ++ "." ++ t.text ++ " " ++ String.intercalate ", " operands

/-- A command of format D (R100). -/
def textD (mnemonic : String) (rd : Reg) : String := mnemonic ++ " " ++ regText rd

/-- A command of format DAT (R100). -/
def textDAT (mnemonic : String) (t : FxTy) (rd ra : Reg) : String :=
  typedText mnemonic t [regText rd, regText ra]

/-- A command of format DABT (R100). -/
def textDABT (mnemonic : String) (t : FxTy) (rd ra rb : Reg) : String :=
  typedText mnemonic t [regText rd, regText ra, regText rb]

/-- The assembler text of a command (R100). -/
def Instr.text : Instr → String
  | .nop => "NOP"
  | .inval t rd => typedText "INVAL" t [regText rd]
  | .fromRaw t rd ra => textDAT "FROMRAW" t rd ra
  | .fromReal t rd ra => textDAT "FROMREAL" t rd ra
  | .isValid t rd ra => textDAT "ISVALID" t rd ra
  | .add t rd ra rb => textDABT "ADD" t rd ra rb
  | .sub t rd ra rb => textDABT "SUB" t rd ra rb
  | .mul t rd ra rb => textDABT "MUL" t rd ra rb
  | .div t rd ra rb => textDABT "DIV" t rd ra rb
  | .cmpLt t rd ra rb => textDABT "CMPLT" t rd ra rb
  | .cmpLe t rd ra rb => textDABT "CMPLE" t rd ra rb
  | .cmpGt t rd ra rb => textDABT "CMPGT" t rd ra rb
  | .cmpGe t rd ra rb => textDABT "CMPGE" t rd ra rb
  | .cmpEq t rd ra rb => textDABT "CMPEQ" t rd ra rb
  | .cmpNe t rd ra rb => textDABT "CMPNE" t rd ra rb
  | .fmt t ra width left plus =>
    typedText "FMT" t ([regText ra, toString width.val] ++ (if left then ["left"] else []) ++
      (if plus then ["plus"] else []))
  | .fclr => "FCLR"
  | .fseal => "FSEAL"
  | .fverify rd => textD "FVERIFY" rd
  | .fset t field ra => typedText "FSET" t [field.text, regText ra]
  | .fget t rd field => typedText "FGET" t [regText rd, field.text]
  | .ppoll rd => textD "PPOLL" rd
  | .prate rd => textD "PRATE" rd
  | .classify t rd ra rb rc re =>
    typedText "CLASSIFY" t [regText rd, regText ra, regText rb, regText rc, regText re]
  | .ftick t ra rb => typedText "FTICK" t [regText ra, regText rb]
  | .fpress => "FPRESS"

end Sys2Proof
end

