-- ==== Sys2Proof/Tests/Slice0.lean ====
section
/-! SUPPORT. Tests/Slice0.lean: the model's own tests, each a named theorem. The expected values of the
step tests are those of spec/95_test_vectors.md (its section is named at each block); the words of the
decode tests are written field by field from R91: OP, RD, RA, RB, RC, RE, TY, DEC, IMM5. The theorems
`test_witness_<Name>` show that the hypotheses of the statement `Obligations.<Name>` can be met. -/

namespace Sys2Proof.Tests
open Sys2Proof.Machine

/-! ### WellFormed refuses an ill-formed term for each of its checks -/

theorem test_wf_fmtWidth17 : (Instr.fmt ⟨.s16, .one⟩ 1 17 false false).wellFormed = false := by decide
theorem test_wf_fsetOtherType : (Instr.fset ⟨.s16, .zero⟩ .tin 0).wellFormed = false := by decide
theorem test_wf_fgetOtherType : (Instr.fget ⟨.u8, .zero⟩ 2 .rhin).wellFormed = false := by decide
theorem test_wf_fmtWidth16 : (Instr.fmt ⟨.s16, .one⟩ 1 16 true true).wellFormed = true := by decide

/-! ### Decode: one word per constructor, written field by field (R91, R92, R93, R95) -/

theorem test_decode_nop : decode 0b00000000_000_000_000_000_000_000_0_00000 = .ok .nop := by decide
theorem test_decode_inval :
    decode 0b00000001_010_000_000_000_000_010_1_00000 = .ok (.inval ⟨.s16, .one⟩ 2) := by decide
theorem test_decode_fromRaw :
    decode 0b00000010_001_010_000_000_000_000_0_00000 = .ok (.fromRaw ⟨.s8, .zero⟩ 1 2) := by decide
theorem test_decode_fromReal :
    decode 0b00000011_001_010_000_000_000_101_0_00000 = .ok (.fromReal ⟨.u32, .zero⟩ 1 2) := by decide
theorem test_decode_isValid :
    decode 0b00000100_000_001_000_000_000_011_0_00000 = .ok (.isValid ⟨.u16, .zero⟩ 0 1) := by decide
theorem test_decode_add :
    decode 0b00001000_011_001_010_000_000_010_1_00000 = .ok (.add ⟨.s16, .one⟩ 3 1 2) := by decide
theorem test_decode_sub :
    decode 0b00001001_111_110_101_000_000_001_0_00000 = .ok (.sub ⟨.u8, .zero⟩ 7 6 5) := by decide
theorem test_decode_mul :
    decode 0b00001010_100_011_011_000_000_010_1_00000 = .ok (.mul ⟨.s16, .one⟩ 4 3 3) := by decide
theorem test_decode_div :
    decode 0b00001011_101_100_000_000_000_100_1_00000 = .ok (.div ⟨.s32, .one⟩ 5 4 0) := by decide
theorem test_decode_cmpLt :
    decode 0b00010000_000_001_010_000_000_010_1_00000 = .ok (.cmpLt ⟨.s16, .one⟩ 0 1 2) := by decide
theorem test_decode_cmpLe :
    decode 0b00010001_000_001_010_000_000_010_1_00000 = .ok (.cmpLe ⟨.s16, .one⟩ 0 1 2) := by decide
theorem test_decode_cmpGt :
    decode 0b00010010_110_101_011_000_000_010_1_00000 = .ok (.cmpGt ⟨.s16, .one⟩ 6 5 3) := by decide
theorem test_decode_cmpGe :
    decode 0b00010011_000_001_010_000_000_000_0_00000 = .ok (.cmpGe ⟨.s8, .zero⟩ 0 1 2) := by decide
theorem test_decode_cmpEq :
    decode 0b00010100_000_001_010_000_000_001_1_00000 = .ok (.cmpEq ⟨.u8, .one⟩ 0 1 2) := by decide
theorem test_decode_cmpNe :
    decode 0b00010101_000_001_010_000_000_101_0_00000 = .ok (.cmpNe ⟨.u32, .zero⟩ 0 1 2) := by decide
theorem test_decode_fmtPlus :
    decode 0b00011000_000_001_010_000_000_010_1_00110 = .ok (.fmt ⟨.s16, .one⟩ 1 6 false true) := by decide
theorem test_decode_fmtLeft :
    decode 0b00011000_000_001_001_000_000_010_1_10000 = .ok (.fmt ⟨.s16, .one⟩ 1 16 true false) := by decide
theorem test_decode_fclr : decode 0b00100000_000_000_000_000_000_000_0_00000 = .ok .fclr := by decide
theorem test_decode_fseal : decode 0b00100001_000_000_000_000_000_000_0_00000 = .ok .fseal := by decide
theorem test_decode_fverify :
    decode 0b00100010_011_000_000_000_000_000_0_00000 = .ok (.fverify 3) := by decide
theorem test_decode_fset :
    decode 0b00100011_000_101_000_000_000_100_0_00111 = .ok (.fset ⟨.s32, .zero⟩ .rpm 5) := by decide
theorem test_decode_fget :
    decode 0b00100100_010_000_000_000_000_010_1_00010 = .ok (.fget ⟨.s16, .one⟩ 2 .tout) := by decide
theorem test_decode_ppoll :
    decode 0b00110000_110_000_000_000_000_000_0_00000 = .ok (.ppoll 6) := by decide
theorem test_decode_prate :
    decode 0b00110001_101_000_000_000_000_000_0_00000 = .ok (.prate 5) := by decide
theorem test_decode_classify :
    decode 0b00111000_000_001_010_011_100_010_1_00000 = .ok (.classify ⟨.s16, .one⟩ 0 1 2 3 4) := by decide
theorem test_decode_ftick :
    decode 0b00111001_000_000_101_000_000_010_1_00000 = .ok (.ftick ⟨.s16, .one⟩ 0 5) := by decide
theorem test_decode_fpress : decode 0b00111010_000_000_000_000_000_000_0_00000 = .ok .fpress := by decide

/-- MOV and the untyped FSET and FGET are words of core commands (R101). -/
theorem test_encode_pseudo :
    encode (.mov 1 2) = 0x02280140 ∧ encode (.fsetOwn .rpm 5) = 0x23140107 ∧
      encode (.fgetOwn 2 .tout) = 0x244000A2 := by decide

/-! ### Decode rejects by name (R97 items 1 to 4) -/

theorem test_reject_reservedOpcode :
    decode 0x05000000 = .error .reservedOpcode ∧ decode 0x3B000000 = .error .reservedOpcode ∧
      decode 0xFF000000 = .error .reservedOpcode := by decide
theorem test_reject_reservedType :
    decode 0x08200180 = .error .reservedType ∧ decode 0x380539A0 = .error .reservedType ∧
      decode 0x010001C0 = .error .reservedType := by decide
theorem test_reject_formatWidth : decode 0x180000B1 = .error .formatWidth := by decide
theorem test_reject_fieldIndex :
    decode 0x230000A8 = .error .fieldIndex ∧ decode 0x240000BF = .error .fieldIndex := by decide
theorem test_untyped_ignores_type : decode 0x20FFFFFF = .ok .fclr := by decide

/-- The numbering of the opcode table: bit 0 is the least significant bit of the one word (R9). -/
theorem test_decodeTableWord :
    decodeTableWord 32 0x30C00000 = some (.ppoll 6) ∧ decodeTableWord 32 0x05000000 = none := by decide

/-- The assembler text of R100's FMT and FSET examples. -/
theorem test_text :
    (Instr.fmt ⟨.s16, .one⟩ 1 6 false true).text = "FMT.s16.1 r1, 6, plus" ∧
      (Instr.fset ⟨.s32, .zero⟩ .rpm 5).text = "FSET.s32.0 RPM, r5" := by decide

/-! ### Single steps -/

/-- The reset state with the operand registers given. -/
def withRegs (regs : Vector Word 8) : State := { State.reset with regs := regs }

/-- The state after a write of a command word. -/
def after (w : Word) (s : State) : Option State :=
  match runCommand w s with
  | .next t => some t
  | .fault _ => none
  | .refused _ => none

/-- One register after a write of a command word. -/
def regAfter (w : Word) (s : State) (r : Reg) : Option Word := (after w s).map (·.reg r)

/-- The four words of FRAME as the host reads them. -/
def frameWords (s : State) : List Word :=
  [s.hostRead 0x80, s.hostRead 0x84, s.hostRead 0x88, s.hostRead 0x8C]

/-- The host's write of one word, with all byte enables. -/
def poke (a : BitVec 8) (v : Word) (s : State) : Option State :=
  match s.hostWrite a v 0xF with
  | .next t => some t
  | .fault _ => none
  | .refused _ => none

/-- The sealed frame of section 3.3, in the 15-byte layout, with R1 = 36000. -/
def sealedFrame : State :=
  { (withRegs #v[0, 36000, 0x28, 0x12C, 0x28, 3, 0x50, 1]).putFrame 0
      [0xD7, 0x00, 0x28, 0x2C, 0x01, 0x28, 0x03, 0x50, 0x00, 0x01, 0xA0, 0x8C, 0x00, 0x00, 0x3C] true
    with edgeCnt := 600, nowMs := 1000 }

/-- The same frame with bit 0 of byte 0 flipped and not sealed (section 3.4). -/
def flippedFrame : State := sealedFrame.putFrame 0 [0xD6] false

-- 95_test_vectors.md section 7
theorem test_nop : after 0x00FFFFFF sealedFrame = some { sealedFrame with cmdWord := 0x00FFFFFF } := by
  decide +kernel
-- section 2.1
theorem test_inval_s8 : regAfter 0x01400000 State.reset 2 = some 0xFFFFFF80 := by decide
theorem test_inval_s32 : regAfter 0x01400100 State.reset 2 = some 0x80000000 := by decide
theorem test_fromRaw_s8 :
    regAfter 0x02280000 (withRegs #v[0, 0, 0xF0, 0, 0, 0, 0, 0]) 1 = some 0xFFFFFFF0 := by decide
theorem test_mov :
    regAfter 0x02280140 (withRegs #v[0, 0, 0xDEADBEEF, 0, 0, 0, 0, 0]) 1 = some 0xDEADBEEF := by decide
theorem test_isValid_u16 :
    regAfter 0x040400C0 (withRegs #v[7, 0x10000, 0, 0, 0, 0, 0, 0]) 0 = some 0 := by decide
theorem test_isValid_sameRegister :
    regAfter 0x04000000 (withRegs #v[0x80, 0, 0, 0, 0, 0, 0, 0]) 0 = some 0 := by decide
-- section 2.2
theorem test_fromReal_tie :
    regAfter 0x032800A0 (withRegs #v[0, 0, 0xC0100000, 0, 0, 0, 0, 0]) 1 = some 0xFFFFFFE9 := by decide
theorem test_fromReal_belowRange :
    regAfter 0x032800A0 (withRegs #v[0, 0, 0xC54CCC00, 0, 0, 0, 0, 0]) 1 = some 0xFFFF8000 := by decide
-- section 2.3
theorem test_add_sameRegisters :
    regAfter 0x082480A0 (withRegs #v[0, 50, 0, 0, 0, 0, 0, 0]) 1 = some 100 := by decide
theorem test_add_reachesSentinel :
    regAfter 0x08650080 (withRegs #v[0, 0xFFFF8001, 0xFFFFFFFF, 0, 0, 0, 0, 0]) 3 = some 0xFFFF8000 := by
  decide
theorem test_sub_unsignedZero :
    regAfter 0x09650040 (withRegs #v[0, 5, 5, 9, 0, 0, 0, 0]) 3 = some 0 := by decide
theorem test_sub_s16 :
    regAfter 0x096500A0 (withRegs #v[0, 0x96, 0x64, 0, 0, 0, 0, 0]) 3 = some 50 := by decide
theorem test_mul_truncates :
    regAfter 0x0A6500A0 (withRegs #v[0, 0xFFFFFFE7, 0x19, 0, 0, 0, 0, 0]) 3 = some 0xFFFFFFC2 := by decide
theorem test_mul_u32 :
    regAfter 0x0A650160 (withRegs #v[0, 0x186A0, 0x186A0, 0, 0, 0, 0, 0]) 3 = some 0x3B9ACA00 := by decide
theorem test_div_truncates :
    regAfter 0x0B6500A0 (withRegs #v[0, 0x64, 0xFFFFFFE2, 0, 0, 0, 0, 0]) 3 = some 0xFFFFFFDF := by decide
theorem test_div_byZero :
    regAfter 0x0B6500A0 (withRegs #v[0, 0x64, 0, 0, 0, 0, 0, 0]) 3 = some 0xFFFF8000 := by decide
-- section 2.4
theorem test_cmpLt_less : regAfter 0x100500A0 (withRegs #v[0, 0, 10, 0, 0, 0, 0, 0]) 0 = some 1 := by decide
theorem test_cmpLt_invalid :
    regAfter 0x100500A0 (withRegs #v[9, 0xFFFF8000, 10, 0, 0, 0, 0, 0]) 0 = some 0 := by decide
theorem test_cmpLe_equal : regAfter 0x110500A0 (withRegs #v[0, 123, 123, 0, 0, 0, 0, 0]) 0 = some 1 := by
  decide
theorem test_cmpGt_unsigned :
    regAfter 0x120500C0 (withRegs #v[0, 0xFFFF, 1, 0, 0, 0, 0, 0]) 0 = some 1 := by decide
theorem test_cmpGt_signed :
    regAfter 0x12050080 (withRegs #v[9, 0xFFFF, 1, 0, 0, 0, 0, 0]) 0 = some 0 := by decide
theorem test_cmpGe_invalidRight :
    regAfter 0x13050000 (withRegs #v[9, 0xFFFFFF81, 0xFFFFFF80, 0, 0, 0, 0, 0]) 0 = some 0 := by decide
theorem test_cmpEq_lowBits :
    regAfter 0x14050080 (withRegs #v[0, 0x00010005, 0xFFFF0005, 0, 0, 0, 0, 0]) 0 = some 1 := by decide
theorem test_cmpEq_invalids :
    regAfter 0x140500A0 (withRegs #v[9, 0xFFFF8000, 0xFFFF8000, 0, 0, 0, 0, 0]) 0 = some 0 := by decide
theorem test_cmpNe_invalids :
    regAfter 0x150500A0 (withRegs #v[9, 0xFFFF8000, 0xFFFF8000, 0, 0, 0, 0, 0]) 0 = some 0 := by decide
theorem test_cmpNe_different :
    regAfter 0x150500A0 (withRegs #v[0, 5, 6, 0, 0, 0, 0, 0]) 0 = some 1 := by decide
-- section 2.5
theorem test_fmt_plus :
    (after 0x180500A6 (withRegs #v[0, 0xD7, 0, 0, 0, 0, 0, 0])).map
      (fun s => (s.fmtLen, s.hostRead 0x70, s.hostRead 0x74, s.hostRead 0x78)) =
      some (6, 0x31322B20, 0x0000352E, 0) := by decide
theorem test_fmt_longest :
    (after 0x18050160 (withRegs #v[0, 0xFFFFFFFF, 0, 0, 0, 0, 0, 0])).map
      (fun s => (s.fmtLen, s.hostRead 0x70, s.hostRead 0x74, s.hostRead 0x78)) =
      some (12, 0x3932342B, 0x37363934, 0x352E3932) := by decide
-- sections 3.1 and 3.2
theorem test_crc8_checkValue :
    crc8 [0x31, 0x32, 0x33, 0x34, 0x35, 0x36, 0x37, 0x38, 0x39] = 0xA1 := by decide +kernel
theorem test_fclr_15 :
    (after 0x20FFFFFF sealedFrame).map frameWords =
      some [0x00808000, 0x00008080, 0x00000080, 0x00B48000] := by decide +kernel
-- sections 3.3 and 3.4
theorem test_fseal :
    (after 0x21000000 flippedFrame).map (fun s => (s.frameByte 14, s.frameSealed)) =
      some (0x10, true) := by decide +kernel
theorem test_fseal_15 :
    (after 0x21000000 { sealedFrame.putFrame 14 [0xB4] false with power := true }).map
      (fun s => (frameWords s, s.frameSealed)) =
      some ([0x2C2800D7, 0x50032801, 0x8CA00100, 0x003C0000], true) := by decide +kernel
theorem test_fverify_success :
    (after 0x22000000 sealedFrame).map (fun s => (s.reg 0, s.frameSealed, s.mem)) =
      some (1, true, sealedFrame.mem) := by decide +kernel
theorem test_fverify_failure :
    (after 0x22000000 flippedFrame).map (fun s => (s.reg 0, s.frameSealed, s.mem)) =
      some (0, false, []) := by decide +kernel
-- section 3.5
theorem test_fset_rpm :
    (after 0x23040107 (withRegs #v[0, 36000, 0, 0, 0, 0, 0, 0])).map
      (fun s => [s.frameByte 9, s.frameByte 10, s.frameByte 11, s.frameByte 12, s.frameByte 13]) =
      some [0, 0xA0, 0x8C, 0, 0] := by decide
theorem test_fset_fanLowByte :
    (after 0x231C0046 (withRegs #v[0, 0, 0, 0, 0, 0, 0, 0x100])).map (·.frameByte 9) = some 0 := by decide
theorem test_fget_tout : regAfter 0x244000A2 sealedFrame 2 = some 0x12C := by decide +kernel
theorem test_fget_rhin :
    regAfter 0x24400001 (State.reset.putFrame 2 [0xFF] false) 2 = some 0xFFFFFFFF := by decide
-- section 4
theorem test_ppoll_sample :
    (after 0x30C00000 sealedFrame).map (fun s => (s.reg 6, s.rate, s.lastSample, s.edgeCnt, s.rateValid)) =
      some (1, 36000, 1000, 0, true) := by decide
theorem test_ppoll_early :
    (after 0x30C00000 { sealedFrame with nowMs := 999 }).map
      (fun s => (s.reg 6, s.rate, s.edgeCnt, s.rateValid)) = some (0, 0, 600, false) := by decide
theorem test_prate_beforeSample : regAfter 0x31A00000 State.reset 5 = some 0x80000000 := by decide
theorem test_prate :
    regAfter 0x31A00000 { State.reset with rateValid := true, rate := 36000 } 5 = some 0x8CA0 := by decide
-- section 5
theorem test_classify_invalidProxiesTooHot :
    regAfter 0x380538A0 (withRegs #v[0, 100, 150, 0xFFFF8000, 0xFFFF8000, 0, 0, 0]) 0 = some 1 := by decide
theorem test_classify_damp :
    regAfter 0x380538A0 (withRegs #v[0, 200, 180, 150, 120, 0, 0, 0]) 0 = some 4 := by decide
-- section 6
theorem test_ftick_elapsed :
    (after 0x390280A0 { withRegs #v[4, 0, 0, 0, 0, 80, 0, 0] with nowMs := 30000 }).map
      (fun s => (s.power, s.lastEval)) = some (true, 30000) := by decide
theorem test_ftick_codeInUpperBits :
    (after 0x390280A0 { withRegs #v[0x104, 0, 0, 0, 0, 80, 0, 0] with nowMs := 30000, power := true }).map
      (·.power) = some false := by decide
theorem test_fpress_midTier :
    (after 0x3A000000 { State.reset with forceTier := 1, forceRemain := 30000 }).map
      (fun s => (s.forceTier, s.forceRemain)) = some (2, 300000) := by decide
theorem test_fpress_cancel :
    (after 0x3A000000 { State.reset with forceTier := 5, forceRemain := 5000, power := true }).map
      (fun s => (s.forceTier, s.forceRemain, s.power)) = some (0, 0, true) := by decide

/-! ### The host interface (section 7), reset, and coincident events -/

theorem test_illegal_word :
    after 0x23000044 { sealedFrame with condEn := false } =
      some { sealedFrame with condEn := false, cmdWord := 0x23000044, ill := true, errCmd := 0x23000044 } := by
  decide +kernel
theorem test_ctrl_change :
    (poke 0x0C 0 sealedFrame).map (fun s => (frameWords s, s.hostRead 0x68, s.frameSealed)) =
      some ([0x00808000, 0x80008080, 0x00000000, 0x00002780], 14, false) := by decide +kernel
theorem test_frame_tail :
    (poke 0x8C 0xFFFFFFFF sealedFrame).map (fun s => (s.hostRead 0x8C, s.frameSealed)) =
      some (0x00FFFFFF, false) := by decide +kernel
theorem test_rptPeriod : (poke 0x48 0x0001EA60 State.reset).map (·.rptPeriod) = some 0xEA60 := by decide
theorem test_misaligned_read : sealedFrame.hostRead 0x16 = sealedFrame.hostRead 0x14 := by decide

/-- A sampling PPOLL, a falling edge and a tick in one instant: the snapshot takes 600, the edge counts in
the new window, and LAST_SAMPLE is the time before the tick (section 4, R247). -/
theorem test_coincident :
    (runSteps 1 { sealedFrame with
      edgePrev := true
      inputs := [⟨false, some (.write 0x00 0x30C00000 0xF), some false, true⟩] }).map
      (fun s => (s.rate, s.edgeCnt, s.lastSample, s.nowMs)) = some (36000, 1, 1000, 1001) := by decide
theorem test_step_withFetchWord :
    (runSteps 1 (State.reset.withFetchWord 32 0x3A000000)).map (fun s => (s.forceTier, s.inputs)) =
      some (1, []) := by decide
theorem test_idle : runSteps 3 State.reset = some State.reset := by decide

/-! ### Witnesses: the hypotheses of the statements can be met -/

theorem test_witness_DecodeOfEncode :
    (Instr.fmt ⟨.u32, .one⟩ 7 16 true true).wellFormed = true ∧
      (Instr.fset ⟨.s16, .one⟩ .volt 6).wellFormed = true ∧
      (Instr.fget ⟨.u8, .zero⟩ 7 .fan).wellFormed = true := by decide
theorem test_witness_UnusedFieldsIgnored :
    (0x20000000 : Word) &&& usedBits ((0x20000000 : Word).extractLsb' 24 8).toNat =
      0x20FFFFFF &&& usedBits ((0x20000000 : Word).extractLsb' 24 8).toNat ∧
    (0x18051EA6 : Word) &&& usedBits ((0x180500A6 : Word).extractLsb' 24 8).toNat =
      0x180500A6 &&& usedBits ((0x180500A6 : Word).extractLsb' 24 8).toNat := by decide
/-- Each item of R97 at a boundary of its range, and the legal neighbour. -/
theorem test_witness_IllegalCommandExactly :
    illegalWord true 0x05000000 = true ∧ illegalWord true 0x3B000000 = true ∧
      illegalWord true 0x3A000000 = false ∧
      illegalWord true 0x08200180 = true ∧ illegalWord true 0x08200160 = false ∧
      illegalWord true 0x180000B1 = true ∧ illegalWord true 0x180000B0 = false ∧
      illegalWord true 0x23000108 = true ∧ illegalWord true 0x23000107 = false ∧
      illegalWord false 0x23000044 = true ∧ illegalWord true 0x23000044 = false ∧
      illegalWord true 0x23000080 = true ∧ illegalWord true 0x230000A0 = false := by decide
/-- An instant whose host access is a write to STATUS that does not clear ILL (and is no command). -/
theorem test_witness_IllStaysUntilCleared :
    ∃ (s t : State) (i : Instant) (rest : List Instant),
      s.inputs = i :: rest ∧ step s = .next t ∧ s.ill = true ∧ i.reset = false ∧
      (∀ a v, i.host = some (.write a v 0xF) → hostReg a = .status → v.getLsbD 8 = false) ∧
      (0x100 : Word).getLsbD 8 = true ∧ illegalWord s.condEn 0xFF000000 = true ∧
      (∀ a w, i.host = some (.write a w 0xF) → hostReg a = .cmd → illegalWord s.condEn w = false) :=
  ⟨{ State.reset with ill := true, inputs := [hostInstant (.write 0x04 7 0xF)] }, _, _, _, rfl, rfl, rfl,
    rfl, by
      intro a v h _
      simp only [hostInstant, Option.some.injEq, HostAccess.write.injEq] at h
      rw [← h.2.1]
      decide, by decide, by decide, by
      intro a v h _
      simp only [hostInstant, Option.some.injEq, HostAccess.write.injEq] at h
      rw [← h.2.1]
      decide⟩
/-- A legal command word, for the clause of the same statement that leaves ERRCMD. -/
theorem test_witness_IllStaysUntilCleared_command :
    ∃ (s t : State) (i : Instant) (rest : List Instant),
      s.inputs = i :: rest ∧ step s = .next t ∧ i.reset = false ∧
      (∀ a w, i.host = some (.write a w 0xF) → hostReg a = .cmd → illegalWord s.condEn w = false) :=
  ⟨{ State.reset with errCmd := 0x05000000, inputs := [commandInstant 0x3A000000] }, _, _, _, rfl, rfl,
    rfl, by
      intro a v h _
      simp only [commandInstant, Option.some.injEq, HostAccess.write.injEq] at h
      rw [← h.2.1]
      decide⟩
/-- A command alone, and a command with a coincident edge and tick. -/
theorem test_witness_StepRunsDecodedCommand :
    ∃ (s s' : State) (t : State) (rest : List Instant),
      s.inputs = commandInstant 0x3A000000 :: rest ∧
      s'.inputs = ⟨false, some (.write 0x00 0x3A000000 0xF), some true, true⟩ :: rest ∧
      decode 0x3A000000 = .ok .fpress ∧
      exec .fpress { s' with inputs := rest, cmdWord := 0x3A000000 } = .next t :=
  ⟨{ State.reset with inputs := [commandInstant 0x3A000000] },
    { State.reset with inputs := [⟨false, some (.write 0x00 0x3A000000 0xF), some true, true⟩] },
    _, [], rfl, rfl, by decide, rfl⟩
/-- A host write with partial byte enables, and addresses of CMD. -/
theorem test_witness_StepRunsDecodedCommand_write :
    { State.reset with inputs := [hostInstant (.write 0x83 0xFF 0x1)] }.inputs =
      hostInstant (.write 0x83 0xFF 0x1) :: [] ∧
    (0x00 : BitVec 8) &&& 0xFC = 0x00 ∧ (0x03 : BitVec 8) &&& 0xFC = 0x00 := by decide
theorem test_witness_NopChangesNothing : (0x00FFFFFF : Word).extractLsb' 24 8 = 0 := by decide
/-- Special and ordinary patterns. -/
theorem test_witness_FromRealRoundsToNearest :
    ((withRegs #v[0x7F800000, 0x7F7FFFFF, 0, 0, 0, 0, 0, 0]).reg 0).extractLsb' 23 8 = 0xFF ∧
      ((withRegs #v[0x7F800000, 0x7F7FFFFF, 0, 0, 0, 0, 0, 0]).reg 1).extractLsb' 23 8 ≠ 0xFF := by decide

/-- R1 = -15, R2 = 30, R3 = 0 and R4 invalid, all read as s16.1. -/
def mixed : State := withRegs #v[4, 0xFFFFFFF1, 30, 0, 0xFFFF8000, 80, 0, 0]

/-- Valid and invalid operands: the hypotheses of the arithmetic statements. -/
theorem test_witness_AddSubExactOrInvalid :
    (FxTy.mk .s16 .one).val (mixed.reg 1) ≠ (FxTy.mk .s16 .one).minT ∧
      (FxTy.mk .s16 .one).val (mixed.reg 2) ≠ (FxTy.mk .s16 .one).minT ∧
      -- the ends of s16's range, for the clauses on `fit`
      (FxTy.mk .s16 .one).minT < -32767 ∧ 32767 ≤ (FxTy.mk .s16 .one).maxT ∧
      -32768 ≤ (FxTy.mk .s16 .one).minT ∧ (FxTy.mk .s16 .one).maxT < 32768 := by decide
theorem test_witness_MulTruncatesTowardZero :
    (FxTy.mk .s16 .one).val (mixed.reg 1) ≠ (FxTy.mk .s16 .one).minT ∧
      (FxTy.mk .s16 .one).val (mixed.reg 3) ≠ (FxTy.mk .s16 .one).minT := by decide
theorem test_witness_DivTruncatesTowardZero :
    (FxTy.mk .s16 .one).val (mixed.reg 3) = 0 ∧
      (FxTy.mk .s16 .one).val (mixed.reg 1) ≠ (FxTy.mk .s16 .one).minT ∧
      (FxTy.mk .s16 .one).val (mixed.reg 2) ≠ (FxTy.mk .s16 .one).minT ∧
      (FxTy.mk .s16 .one).val (mixed.reg 2) ≠ 0 := by decide
theorem test_witness_InvalidOperandsPropagate :
    (FxTy.mk .s16 .one).val (mixed.reg 4) = (FxTy.mk .s16 .one).minT ∧
      (FxTy.mk .u8 .zero).val (mixed.reg 3) = (FxTy.mk .u8 .zero).minT := by decide
/-- Two register files whose sources R1 and R2 agree in their low 16 bits alone, and whose other
registers differ there too. -/
theorem test_witness_UpperOperandBitsIgnored :
    (mixed.reg 1).setWidth (FxTy.mk .s16 .one).width =
        ((withRegs #v[7, 0x1234FFF1, 0x7000001E, 9, 9, 9, 9, 9]).reg 1).setWidth
          (FxTy.mk .s16 .one).width ∧
      (mixed.reg 2).setWidth (FxTy.mk .s16 .one).width =
        ((withRegs #v[7, 0x1234FFF1, 0x7000001E, 9, 9, 9, 9, 9]).reg 2).setWidth
          (FxTy.mk .s16 .one).width := by decide
theorem test_witness_FmtWritesText : (16 : Fin 32).val ≤ 16 ∧ (0 : Fin 32).val ≤ 16 := by decide
theorem test_witness_ValidTextDenotesValue :
    (0 : Int) ≠ (FxTy.mk .s16 .one).minT ∧ 9999999999 < 10 ^ 10 ∧ 0 < 9999999999 ∧
      (-1 : Int) < 0 ∧ (0 : Int) ≤ 0 ∧ 0 < 10 ∧ 9 < 10 := by decide
theorem test_witness_InvalidTextIsPlaceholder :
    (16 : Fin 32).val ≤ 16 ∧ (FxTy.mk .s16 .one).val (mixed.reg 4) = (FxTy.mk .s16 .one).minT := by decide
/-- The two illegal field forms, each without the other. -/
theorem test_witness_IllegalFormsRaise :
    16 < (17 : Fin 32).val ∧ { State.reset with condEn := false }.condEn = false ∧
      FxTy.mk .u8 .zero = Field.cond.ty ∧ FxTy.mk .s16 .zero ≠ Field.tin.ty := by decide
theorem test_witness_FclrIdempotent : sealedFrame.mem.wf ∧ State.reset.mem.wf := by decide +kernel
/-- A frame whose checksum matches, and one whose checksum does not. -/
theorem test_witness_FverifyKeepsOrClears :
    crc8 ((List.range (sealedFrame.frameLen - 1)).map sealedFrame.frameByte) =
      sealedFrame.frameByte (sealedFrame.frameLen - 1) ∧
    crc8 ((List.range (flippedFrame.frameLen - 1)).map flippedFrame.frameByte) ≠
      flippedFrame.frameByte (flippedFrame.frameLen - 1) := by decide +kernel
/-- A state that keeps the layout and the frame bytes FSEAL left, with other registers and timers. -/
theorem test_witness_SealDetectsEveryBitFlip_kept :
    exec .fseal sealedFrame = .next sealedFrame ∧ State.reset.regs ≠ sealedFrame.regs ∧
    { State.reset with mem := sealedFrame.mem }.condEn = sealedFrame.condEn ∧
    ∀ i, i < sealedFrame.frameLen →
      { State.reset with mem := sealedFrame.mem }.frameByte i = sealedFrame.frameByte i :=
  ⟨congrArg Host.Outcome.next (by decide +kernel), by decide +kernel, by decide, by decide +kernel⟩
/-- A sealed frame and the same frame with one bit of its first byte, and of its checksum, flipped. -/
theorem test_witness_SealDetectsEveryBitFlip :
    exec .fseal sealedFrame = .next sealedFrame ∧
    (0 < sealedFrame.frameLen ∧ flippedFrame.condEn = sealedFrame.condEn ∧
      (∀ i, i < sealedFrame.frameLen → i ≠ 0 → flippedFrame.frameByte i = sealedFrame.frameByte i) ∧
      flippedFrame.frameByte 0 = sealedFrame.frameByte 0 ^^^ BitVec.twoPow 8 0) ∧
    (14 < sealedFrame.frameLen ∧
      (∀ i, i < sealedFrame.frameLen → i ≠ 14 →
        (sealedFrame.putFrame 14 [0xBC] false).frameByte i = sealedFrame.frameByte i) ∧
      (sealedFrame.putFrame 14 [0xBC] false).frameByte 14 =
        sealedFrame.frameByte 14 ^^^ BitVec.twoPow 8 7) :=
  ⟨congrArg Host.Outcome.next (by decide +kernel), by decide +kernel, by decide +kernel⟩
/-- COND in the 15-byte layout, FAN, and a fixed-point field in both layouts. -/
theorem test_witness_FsetStoresField :
    (Field.cond = .cond → State.reset.condEn = true) ∧
      (Field.fan = .cond → { State.reset with condEn := false }.condEn = true) ∧
      (Field.rpm = .cond → { State.reset with condEn := false }.condEn = true) := by decide
theorem test_witness_FgetReadsField :
    (Field.cond = .cond → sealedFrame.condEn = true) ∧ (Field.volt = .cond → sealedFrame.condEn = true) := by
  decide
theorem test_witness_FgetAfterFset :
    (Field.fan = .cond → sealedFrame.condEn = true) ∧ (Field.rhin = .cond → sealedFrame.condEn = true) := by
  decide
/-- 999 and 0 ms elapsed (no sample), and exactly SAMPLE_MIN (a sample), across the wrap of NOW_MS. -/
theorem test_witness_PpollSamplesWindow :
    999 = ((999 : Word).toNat + 2 ^ 32 - (0 : Word).toNat) % 2 ^ 32 ∧ 999 < State.reset.sampleMin.toNat ∧
    0 = ((5000 : Word).toNat + 2 ^ 32 - (5000 : Word).toNat) % 2 ^ 32 ∧
    1000 = ((600 : Word).toNat + 2 ^ 32 - (0xFFFFFE70 : Word).toNat) % 2 ^ 32 ∧
      State.reset.sampleMin.toNat ≤ 1000 := by decide
theorem test_witness_PrateAnswersCachedRate :
    (0x7FFFFFFF : Word).toNat < 2 ^ 31 ∧ 2 ^ 31 ≤ (0x80000000 : Word).toNat ∧
      State.reset.rateValid = false ∧ { State.reset with rateValid := true }.rateValid = true := by decide
theorem test_witness_EdgeStepCountsFalling :
    { State.reset with edgePrev := true, edgeCnt := 0xFFFF, inputs := [edgeInstant false] }.inputs =
      edgeInstant false :: [] := rfl
/-- No override, the last tick of one, and an override that goes on. -/
theorem test_witness_TickAdvancesTimers :
    { State.reset with nowMs := 0xFFFFFFFF, inputs := [tickInstant] }.inputs = tickInstant :: [] ∧
      State.reset.forceRemain.toNat = 0 ∧ (1 : Word).toNat = 1 ∧ 2 ≤ (2 : Word).toNat := by decide
/-- An instant with a falling edge and a tick whose host access is a PPOLL that finds no new sample. -/
theorem test_witness_PulseStateOwnership :
    ∃ (s t : State) (i : Instant) (rest : List Instant),
      s.inputs = i :: rest ∧ step s = .next t ∧ i.reset = false ∧
      (∀ a w rd, i.host = some (.write a w 0xF) → hostReg a = .cmd → decode w = .ok (.ppoll rd) →
        s.elapsed s.lastSample < s.sampleMin ∨ s.elapsed s.lastSample = 0) :=
  ⟨{ State.reset with
      nowMs := 999
      edgePrev := true
      inputs := [⟨false, some (.write 0x00 0x30C00000 0xF), some false, true⟩] },
    _, _, _, rfl, rfl, rfl, fun _ _ _ _ _ _ => .inl (by decide)⟩

/-- Readings for each of the six steps of R211, under HOT_TH = 50 and COLD_TH = 10: an invalid
temperature; too hot at 51; too cold at 9; an invalid proxy; equal proxies; a damp pair. -/
theorem test_witness_ClassifyFirstMatch :
    ∀ p ∈ ([([0, 0xFFFF8000, 60, 120, 150], 0), ([0, 51, 60, 120, 150], 1), ([0, 9, 5, 120, 150], 2),
        ([0, 50, 60, 120, 0xFFFF8000], 0), ([0, 10, 5, 150, 150], 3), ([0, 200, 180, 150, 120], 4)] :
        List (List Word × Word)),
      regAfter 0x380538A0
        (withRegs #v[p.1.getD 0 0, p.1.getD 1 0, p.1.getD 2 0, p.1.getD 3 0, p.1.getD 4 0, 0, 0, 0]) 0 =
        some p.2 := by decide
/-- The three cases, the timer at EVAL_PERIOD and one below it. -/
theorem test_witness_FtickThreeCases :
    { mixed with forceRemain := 1 }.forceRemain ≠ 0 ∧ mixed.forceRemain = 0 ∧
    29999 = ((29999 : Word).toNat + 2 ^ 32 - mixed.lastEval.toNat) % 2 ^ 32 ∧
      29999 < mixed.evalPeriod.toNat ∧
    30000 = ((30000 : Word).toNat + 2 ^ 32 - mixed.lastEval.toNat) % 2 ^ 32 ∧
      mixed.evalPeriod.toNat ≤ 30000 ∧
    (mixed.reg 0 = 4 ∧ (FxTy.mk .s16 .one).val (mixed.reg 5) ≠ (FxTy.mk .s16 .one).minT ∧
      (FxTy.mk .s16 .one).val mixed.vmin ≠ (FxTy.mk .s16 .one).minT ∧
      (FxTy.mk .s16 .one).val mixed.vmin < (FxTy.mk .s16 .one).val (mixed.reg 5)) := by decide
theorem test_witness_LadderCyclesWithPeriodSix :
    { State.reset with inputs := List.replicate 7 (commandInstant 0x3A000000) }.inputs =
      List.replicate 7 (commandInstant 0x3A000000) ++ [] ∧ State.reset.forceTier = 0 := by decide
/-- An override of 2 ms, before (n = 1) and at (n = 2) its end. -/
theorem test_witness_OverrideLastsItsDuration :
    ∃ s : State, s.inputs = List.replicate 2 tickInstant ++ [] ∧
      s.inputs = List.replicate 1 tickInstant ++ [tickInstant] ∧ s.forceInv ∧
      1 < s.forceRemain.toNat ∧ s.forceRemain.toNat ≤ 2 :=
  ⟨{ State.reset with forceTier := 3, forceRemain := 2, inputs := [tickInstant, tickInstant] },
    rfl, rfl, by unfold State.forceInv; decide, by decide, by decide⟩
theorem test_witness_OnlyFtickChangesPower :
    ∃ (s t : State) (i : Instant) (rest : List Instant),
      s.inputs = i :: rest ∧ step s = .next t ∧ i.reset = false ∧
      (∀ a w ty ra rb, i.host = some (.write a w 0xF) → hostReg a = .cmd →
        decode w ≠ .ok (.ftick ty ra rb)) :=
  ⟨{ sealedFrame with power := true, inputs := [commandInstant 0x3A000000] }, _, _, _, rfl, rfl, rfl, by
      intro a w ty ra rb h _
      simp only [commandInstant, Option.some.injEq, HostAccess.write.injEq] at h
      rw [← h.2.1]
      exact fun h => Instr.noConfusion (Except.ok.inj h)⟩
theorem test_witness_StatusShowsFlags : 31 < 32 ∧ 8 < 32 ∧ 0 < 32 := by decide
theorem test_witness_ResetStepSetsResetValues :
    ∃ (s : State) (i : Instant) (rest : List Instant),
      s.inputs = i :: rest ∧ i.reset = true ∧ i.host = some (.write 0x00 0x3A000000 0xF) :=
  ⟨{ sealedFrame with inputs := [⟨true, some (.write 0x00 0x3A000000 0xF), some false, true⟩] },
    _, _, rfl, rfl, rfl⟩
/-- CMD and the reserved offsets, at the edges of their ranges. -/
theorem test_witness_ResetReads :
    (0x03 : BitVec 8) &&& 0xFC = 0x00 ∧ (0x4F : BitVec 8) &&& 0xFC = 0x4C ∧
      (0x6C : BitVec 8) &&& 0xFC = 0x6C ∧ (0x90 : BitVec 8) ≤ 0x90 ∧ (0x90 : BitVec 8) ≤ 0xFF := by decide
theorem test_witness_ReadsHaveNoSideEffect :
    { sealedFrame with inputs := [hostInstant (.read 0xFF)] }.inputs = hostInstant (.read 0xFF) :: [] := rfl
/-- Offsets at the edges of the ranges. -/
theorem test_witness_IgnoredWritesChangeNothing :
    ((0x7F : BitVec 8) < 0x80) ∧ (0x90 : BitVec 8) ≤ 0x90 ∧ (7 : BitVec 4) ≠ 0xF ∧
      (0x33 : BitVec 8) &&& 0xFC = 0x30 ∧ (0x70 : BitVec 8) ≤ 0x70 ∧ (0xFF : BitVec 8) ≥ 0x90 := by decide
theorem test_witness_HostReadsBackWrites :
    (0x44 : BitVec 8) ∈ ([0x34, 0x38, 0x3C, 0x40, 0x44] : List (BitVec 8)) := by decide
/-- Lanes below and at FRAMELEN. -/
theorem test_witness_FrameWriteByLanes :
    2 < 4 ∧ 4 * (3 : Fin 4).val + 2 < sealedFrame.frameLen ∧
      3 < 4 ∧ ¬4 * (3 : Fin 4).val + 3 < sealedFrame.frameLen := by decide
theorem test_witness_ByteArraysReadByLanes : 0 < 4 ∧ 3 < 4 := by decide
theorem test_witness_CtrlChangeClearsFrame :
    (0xFFFFFFFF : Word).getLsbD 0 = State.reset.condEn ∧
      (0xFFFFFFFE : Word).getLsbD 0 ≠ State.reset.condEn := by decide
/-- A sealed frame, canonical memory, and a step from it. -/
theorem test_witness_MemoryStaysCanonical :
    ∃ s t : State, s.mem.wf ∧ s.mem ≠ [] ∧ step s = .next t :=
  ⟨{ sealedFrame with inputs := [commandInstant 0x20000000] }, _, by decide +kernel, by decide +kernel, rfl⟩
theorem test_witness_OverrideInvariantKept :
    ∃ s t : State, s.forceInv ∧ s.forceRemain ≠ 0 ∧ step s = .next t :=
  ⟨{ State.reset with forceTier := 5, forceRemain := 7200000, inputs := [tickInstant] }, _,
    by unfold State.forceInv; decide, by decide, rfl⟩
theorem test_witness_SealedChecksumStaysCurrent :
    ∃ s t : State, s.sealInv ∧ s.tailInv ∧ s.frameSealed = true ∧ step s = .next t :=
  ⟨{ sealedFrame with inputs := [commandInstant 0x30C00000] }, _, by unfold State.sealInv; decide +kernel,
    by
      intro k h1 h2
      have h3 : 15 ≤ k := h1
      have h4 : k = 15 := by omega
      subst h4
      decide +kernel,
    rfl, rfl⟩
theorem test_witness_TextAndRateInvariantsKept :
    ∃ s t : State, s.textInv ∧ s.rateInv ∧ step s = .next t :=
  ⟨{ State.reset with inputs := [commandInstant 0x180500A6] }, _,
    ⟨by decide, fun k _ h => by revert h; revert k; decide⟩, fun _ => ⟨rfl, rfl⟩, rfl⟩

end Sys2Proof.Tests
end

section
/-! PROOF. The FXU's two-operand commands: each writes one function of its two operands' values to RD
(41_fixed_point.md R127 to R144). From that equation come the arithmetic of ADD, SUB and MUL, and that
the upper bits of a source are read by none of them. -/

namespace Sys2Proof

theorem FxTy.scale_nonneg (t : FxTy) : 0 ≤ t.scale := Int.natCast_nonneg _

/-- Division toward zero by 10^d floors the absolute value (R129). -/
theorem FxTy.natAbs_tdiv_scale (t : FxTy) (x : Int) :
    (x.tdiv t.scale).natAbs = x.natAbs / t.dec.scale :=
  Int.natAbs_tdiv x t.scale

/-- Division toward zero by 10^d never turns the sign around (R129). -/
theorem FxTy.tdiv_scale_mul_self_nonneg (t : FxTy) (x : Int) : 0 ≤ x.tdiv t.scale * x := by
  rcases le_total 0 x with hx | hx
  · exact mul_nonneg (Int.tdiv_nonneg hx t.scale_nonneg) hx
  · have hneg : 0 ≤ -x := neg_nonneg.2 hx
    have h := mul_nonneg (Int.tdiv_nonneg hneg t.scale_nonneg) hneg
    rwa [Int.neg_tdiv, neg_mul_neg] at h

namespace Machine

/-- A two-operand command whose one effect is to write to RD the word `f a b`, where a and b are the
values of RA and RB under the type. -/
def WritesFunctionOfValues (t : FxTy) (rd : Reg) (mk : Reg → Reg → Instr) (f : Int → Int → Word) :
    Prop :=
  ∀ (s : State) (ra rb : Reg),
    exec (mk ra rb) s = .next (s.setReg rd (f (t.val (s.reg ra)) (t.val (s.reg rb))))

section
variable (t : FxTy) (rd : Reg)

theorem add_writes : WritesFunctionOfValues t rd (.add t rd) fun a b => t.arith a b (a + b) :=
  fun _ _ _ => rfl

theorem sub_writes : WritesFunctionOfValues t rd (.sub t rd) fun a b => t.arith a b (a - b) :=
  fun _ _ _ => rfl

theorem mul_writes :
    WritesFunctionOfValues t rd (.mul t rd) fun a b => t.arith a b ((a * b).tdiv t.scale) :=
  fun _ _ _ => rfl

theorem div_writes :
    WritesFunctionOfValues t rd (.div t rd) fun a b =>
      if b = 0 then t.inv else t.arith a b ((a * t.scale).tdiv b) :=
  fun _ _ _ => rfl

theorem cmpLt_writes :
    WritesFunctionOfValues t rd (.cmpLt t rd) fun a b => boolWord (ltUnder t a b) :=
  fun _ _ _ => rfl

theorem cmpLe_writes :
    WritesFunctionOfValues t rd (.cmpLe t rd) fun a b => boolWord (leUnder t a b) :=
  fun _ _ _ => rfl

theorem cmpGt_writes :
    WritesFunctionOfValues t rd (.cmpGt t rd) fun a b => boolWord (gtUnder t a b) :=
  fun _ _ _ => rfl

theorem cmpGe_writes :
    WritesFunctionOfValues t rd (.cmpGe t rd) fun a b => boolWord (geUnder t a b) :=
  fun _ _ _ => rfl

theorem cmpEq_writes :
    WritesFunctionOfValues t rd (.cmpEq t rd) fun a b => boolWord (eqUnder t a b) :=
  fun _ _ _ => rfl

theorem cmpNe_writes :
    WritesFunctionOfValues t rd (.cmpNe t rd) fun a b => boolWord (neUnder t a b) :=
  fun _ _ _ => rfl

end

/-- A command that writes an arithmetic result changes RD alone, leaves it canonical, and for valid
operands gives it the exact result through `fit` (R127, R128). -/
theorem WritesFunctionOfValues.arith_spec {t : FxTy} {rd : Reg} {mk : Reg → Reg → Instr}
    {result : Int → Int → Int}
    (h : WritesFunctionOfValues t rd mk fun a b => t.arith a b (result a b))
    (s : State) (ra rb : Reg) :
    ∃ u, exec (mk ra rb) s = .next u ∧ changesOnlyReg rd s u ∧ t.canonical (u.reg rd) ∧
      (t.val (s.reg ra) ≠ t.minT → t.val (s.reg rb) ≠ t.minT →
        t.val (u.reg rd) = t.fit (result (t.val (s.reg ra)) (t.val (s.reg rb)))) := by
  refine ⟨_, h s ra rb, changesOnlyReg_setReg s rd _, ?_⟩
  rw [State.reg_setReg_same]
  exact t.arith_spec _ _ _

/-- A function of the two values does not see the bits above the low w of RA and RB (R12, R23). -/
theorem WritesFunctionOfValues.ignores_upper_bits {t : FxTy} {rd : Reg} {mk : Reg → Reg → Instr}
    {f : Int → Int → Word} (h : WritesFunctionOfValues t rd mk f) {s s' : State} {ra rb : Reg}
    (ha : (s.reg ra).setWidth t.width = (s'.reg ra).setWidth t.width)
    (hb : (s.reg rb).setWidth t.width = (s'.reg rb).setWidth t.width) :
    ∃ u u', exec (mk ra rb) s = .next u ∧ exec (mk ra rb) s' = .next u' ∧ u.reg rd = u'.reg rd := by
  refine ⟨_, _, h s ra rb, h s' ra rb, ?_⟩
  rw [State.reg_setReg_same, State.reg_setReg_same, t.val_congr _ _ ha, t.val_congr _ _ hb]

/-- Settles O12: the table of R93 by cases on the integer type, the two laws of `fit`, and ADD and SUB as arithmetic results. -/
theorem addSubExactOrInvalid : Obligations.AddSubExactOrInvalid := by
  refine ⟨?table, fun _ _ => rfl, ?fit, fun s t rd ra rb =>
    ⟨(add_writes t rd).arith_spec s ra rb, (sub_writes t rd).arith_spec s ra rb⟩⟩
  case table =>
    rintro ⟨int, dec⟩
    cases int <;> rfl
  case fit =>
    exact fun t z => ⟨fun hlo hhi => t.fit_of_valid z ⟨hlo, hhi⟩, fun h => t.fit_of_not z (by omega)⟩

/-- Settles O13: the result is an arithmetic one, and its exact part is the product divided by 10^d
toward zero. -/
theorem mulTruncatesTowardZero : Obligations.MulTruncatesTowardZero := by
  refine ⟨rfl, rfl, fun s t rd ra rb => ?_⟩
  obtain ⟨u, hexec, hframe, hcanon, hval⟩ := (mul_writes t rd).arith_spec s ra rb
  exact ⟨u, hexec, hframe, hcanon, fun ha hb =>
    ⟨_, hval ha hb, t.natAbs_tdiv_scale _, t.tdiv_scale_mul_self_nonneg _⟩⟩

/-- Settles O17: each of the ten commands writes a function of its operands' values, and a value depends
on the low w bits alone. -/
theorem upperOperandBitsIgnored : Obligations.UpperOperandBitsIgnored := by
  intro s s' t rd ra rb ha hb mk hmk
  suffices hwrites : ∃ f, WritesFunctionOfValues t rd mk f by
    obtain ⟨f, hf⟩ := hwrites
    exact hf.ignores_upper_bits ha hb
  simp only [List.mem_cons, List.not_mem_nil, or_false] at hmk
  rcases hmk with rfl | rfl | rfl | rfl | rfl | rfl | rfl | rfl | rfl | rfl
  · exact ⟨_, add_writes t rd⟩
  · exact ⟨_, sub_writes t rd⟩
  · exact ⟨_, mul_writes t rd⟩
  · exact ⟨_, div_writes t rd⟩
  · exact ⟨_, cmpLt_writes t rd⟩
  · exact ⟨_, cmpLe_writes t rd⟩
  · exact ⟨_, cmpGt_writes t rd⟩
  · exact ⟨_, cmpGe_writes t rd⟩
  · exact ⟨_, cmpEq_writes t rd⟩
  · exact ⟨_, cmpNe_writes t rd⟩

end Machine

end Sys2Proof
end

section
/-! PROOF. The invariants of a step: what the edge and the tick of an instant may change, the rule
that reduces "every step keeps P" to RESET and a host access, and from it the invariants of SEALED and
the frame's tail (10_state.md R31, R32) and of the text and the rate (R30, R146, R197, R198). -/

namespace Sys2Proof.Machine

/-! ### What the edge, the tick and a FRAME write change -/

/-- A tick touches NOW_MS and the override countdown alone (R190, R225). -/
theorem State.tickStep_changesOnlyTimers (s : State) : ∃ remain tier,
    s.tickStep = { s with nowMs := s.nowMs + 1, forceRemain := remain, forceTier := tier } := by
  unfold State.tickStep State.countDown
  split <;> exact ⟨_, _, rfl⟩

/-- The edge and the tick of an instant touch EDGE_CNT, EDGE_PREV, NOW_MS and the override countdown
alone (R190, R191, R225). -/
theorem State.edgeAndTick_changesOnlyTimers (s : State) (i : Instant) :
    ∃ cnt prev now remain tier, s.edgeAndTick i = { s with
      edgeCnt := cnt, edgePrev := prev, nowMs := now, forceRemain := remain, forceTier := tier } := by
  have htick (u : State) :
      ∃ now remain tier, (if i.tick then u.tickStep else u) =
        { u with nowMs := now, forceRemain := remain, forceTier := tier } := by
    split
    · obtain ⟨remain, tier, h⟩ := u.tickStep_changesOnlyTimers
      exact ⟨_, remain, tier, h⟩
    · exact ⟨_, _, _, rfl⟩
  unfold State.edgeAndTick
  cases i.edge with
  | none =>
    obtain ⟨now, remain, tier, h⟩ := htick s
    exact ⟨_, _, now, remain, tier, h⟩
  | some level =>
    obtain ⟨now, remain, tier, h⟩ := htick (s.edgeStep level)
    exact ⟨_, _, now, remain, tier, h⟩

/-- Whatever a one-byte FRAME store below FRAMELEN keeps, a host write of a FRAME word keeps (R62). -/
theorem State.writeFrameWord_keeps {P : State → Prop}
    (hput : ∀ s k v, k < s.frameLen → P s → P (s.putFrame k [v] false))
    {s : State} (q : Nat) (data : Word) (be : BitVec 4) (hs : P s) :
    P (s.writeFrameWord q data be) := by
  have hlane : ∀ s k v enabled, P s → P (s.writeLane k v enabled) := by
    intro s k v enabled hs
    unfold State.writeLane
    split
    case isTrue hk => exact hput s k v hk.2 hs
    case isFalse => exact hs
  exact hlane _ _ _ _ (hlane _ _ _ _ (hlane _ _ _ _ (hlane _ _ _ _ hs)))

/-! ### The invariant rule -/

/-- A property that RESET establishes and every host access keeps is kept by every step, if it depends
neither on the instants to come nor on what the edge and the tick change. -/
theorem step_keeps {P : State → Prop} (hreset : ∀ s : State, P s.resetStep)
    (hinputs : ∀ (s : State) rest, P s → P { s with inputs := rest })
    (hhost : ∀ s u, HostEffect s u → P s → P u)
    (htimers : ∀ (s : State) cnt prev now remain tier, P s → P { s with
      edgeCnt := cnt, edgePrev := prev, nowMs := now, forceRemain := remain, forceTier := tier })
    {s t : State} (hs : P s) (h : step s = .next t) : P t := by
  obtain ⟨-, rfl⟩ | ⟨i, rest, -, ⟨-, rfl⟩ | ⟨-, u, hu, rfl⟩⟩ := step_cases h
  · exact hs
  · exact hreset _
  · obtain ⟨cnt, prev, now, remain, tier, htick⟩ := u.edgeAndTick_changesOnlyTimers i
    rw [htick]
    exact htimers u _ _ _ _ _ (hhost _ u hu (hinputs s rest hs))

/-! ### SEALED and the tail of the frame -/

/-- The two invariants of FRAME together (R31, R32). -/
def State.frameInv (s : State) : Prop := s.sealInv ∧ s.tailInv

theorem State.frameInv_of_unsealed {s : State} (hseal : s.frameSealed = false) (htail : s.tailInv) :
    s.frameInv :=
  ⟨fun h => absurd h (by simp [hseal]), htail⟩

theorem State.tailInv_putFrame {s : State} {k : Nat} {bytes : List Byte} {mark : Bool}
    (hk : k + bytes.length ≤ s.frameLen) (hs : s.tailInv) : (s.putFrame k bytes mark).tailInv := by
  intro j hlo hhi
  rw [State.frameLen_putFrame] at hlo
  rw [State.frameByte_putFrame, if_neg (by omega)]
  exact hs j hlo hhi

/-- A store below FRAMELEN clears SEALED and leaves the tail. -/
theorem State.frameInv_store {s : State} {k : Nat} {bytes : List Byte}
    (hk : k + bytes.length ≤ s.frameLen) (hs : s.frameInv) : (s.putFrame k bytes false).frameInv :=
  State.frameInv_of_unsealed rfl (State.tailInv_putFrame hk hs.2)

/-- FSEAL stores the checksum in the byte past the ones it covers, so the checksum stays current. -/
theorem State.frameInv_seal {s : State} (hs : s.tailInv) :
    (s.putFrame (s.frameLen - 1) [s.frameCrc] true).frameInv := by
  have hpos : 0 < s.frameLen := layoutLen_pos _
  refine ⟨fun _ => ?_, State.tailInv_putFrame (by simp; omega) hs⟩
  have hcrc : (s.putFrame (s.frameLen - 1) [s.frameCrc] true).frameCrc = s.frameCrc := by
    refine State.frameCrc_congr rfl fun k hk => ?_
    rw [State.frameByte_putFrame, if_neg (by omega)]
  rw [State.frameLen_putFrame, hcrc, State.frameByte_putFrame, if_pos (by simp)]
  simp

/-- The bytes FCLR leaves from FRAMELEN on (R161). -/
theorem clearedFrame_tail (condEn : Bool) (k : Nat) (hlo : layoutLen condEn ≤ k) :
    (clearedFrame condEn).getD k 0 = 0 := by
  have hlen : (clearedFields condEn).length + 1 = layoutLen condEn := by cases condEn <;> decide
  have hpre : (clearedFields condEn ++ [crc8 (clearedFields condEn) ^^^ 0xFF]).length ≤ k := by
    simpa [hlen] using hlo
  unfold clearedFrame
  rw [List.getD_append_right _ _ _ _ hpre, List.getD_eq_getElem?_getD, List.getElem?_replicate]
  split <;> rfl

theorem State.frameInv_clearFrame (s : State) : s.clearFrame.frameInv := by
  refine State.frameInv_of_unsealed rfl fun k hlo hhi => ?_
  rw [State.frameByte_clearFrame s k hhi]
  exact clearedFrame_tail _ _ hlo

theorem CommandEffect.keeps_frameInv {s t : State} (h : CommandEffect s t) (hs : s.frameInv) :
    t.frameInv := by
  cases h with
  | formats text =>
    have hbyte := State.frameByte_putText s text
    have hcrc : (s.putText text).frameCrc = s.frameCrc :=
      State.frameCrc_congr rfl fun k _ => hbyte k
    refine ⟨fun hsealed => ?_, fun k hlo hhi => (hbyte k).trans (hs.2 k hlo hhi)⟩
    rw [hcrc, hbyte]
    exact hs.1 hsealed
  | clears => exact s.frameInv_clearFrame
  | rejects => exact s.frameInv_clearFrame
  | seals => exact State.frameInv_seal hs.2
  | verifies rd hcrc => exact ⟨fun _ => hcrc.symm, hs.2⟩
  | stores k bytes hk => exact State.frameInv_store hk.le hs
  | _ => exact hs

theorem HostEffect.keeps_frameInv {s t : State} (h : HostEffect s t) (hs : s.frameInv) :
    t.frameInv := by
  cases h with
  | command word _ hcmd => exact hcmd.keeps_frameInv hs
  | relayouts c => exact State.frameInv_clearFrame _
  | writesFrame q data be =>
    exact State.writeFrameWord_keeps (fun _ _ _ hk => State.frameInv_store hk) q.val data be hs
  | _ => exact hs

/-- FRAME after RESET: the cleared frame of the 15-byte layout (R260). -/
theorem State.frameByte_resetStep (s : State) (k : Nat) :
    s.resetStep.frameByte k = (clearedFrame true).getD k 0 := by
  change Memory.resetByte (frameBase + k) = _
  rw [Memory.resetByte, if_pos (Nat.le_add_right _ _), Nat.add_sub_cancel_left]

theorem State.frameInv_resetStep (s : State) : s.resetStep.frameInv := by
  refine State.frameInv_of_unsealed rfl fun k hlo _ => ?_
  rw [State.frameByte_resetStep]
  exact clearedFrame_tail true k hlo

/-- Settles O58: RESET and FCLR leave an unsealed frame with a zero tail, a store below FRAMELEN clears
SEALED, FSEAL and FVERIFY set it only over a current checksum, and nothing else touches FRAME. -/
theorem sealedChecksumStaysCurrent : Obligations.SealedChecksumStaysCurrent :=
  fun _ _ hseal htail h => step_keeps (P := State.frameInv) State.frameInv_resetStep (fun _ _ => id)
    (fun _ _ => HostEffect.keeps_frameInv) (fun _ _ _ _ _ _ => id) ⟨hseal, htail⟩ h

/-! ### The text and the rate -/

/-- The two invariants of FMT's buffer and of the rate together (R30, R146, R197, R198). -/
def State.textRateInv (s : State) : Prop := s.textInv ∧ s.rateInv

/-- No frame write reaches FMTBUF. -/
theorem State.textInv_putFrame {s : State} {k : Nat} {bytes : List Byte} {mark : Bool}
    (hs : s.textInv) : (s.putFrame k bytes mark).textInv :=
  ⟨hs.1, fun j hlo hhi => (State.fmtByte_putFrame s k bytes mark j hhi).trans (hs.2 j hlo hhi)⟩

theorem State.textRateInv_putFrame {s : State} {k : Nat} {bytes : List Byte} {mark : Bool}
    (hs : s.textRateInv) : (s.putFrame k bytes mark).textRateInv :=
  ⟨State.textInv_putFrame hs.1, hs.2⟩

theorem State.textRateInv_clearFrame {s : State} (hs : s.textRateInv) : s.clearFrame.textRateInv :=
  State.textRateInv_putFrame hs

/-- A text that fits is stored with its length and zeros after it (R146). -/
theorem State.textInv_putText (s : State) {text : List Byte} (h : text.length ≤ 16) :
    (s.putText text).textInv := by
  have hlen : (s.putText text).fmtLen.toNat = text.length := by
    rw [State.putText_fmtLen, BitVec.toNat_ofNat, Nat.mod_eq_of_lt (by omega)]
  refine ⟨hlen.trans_le h, fun k hlo hhi => ?_⟩
  rw [State.fmtByte_putText _ _ _ hhi]
  exact List.getD_eq_default _ _ (hlen ▸ hlo)

theorem CommandEffect.keeps_textRateInv {s t : State} (h : CommandEffect s t) (hs : s.textRateInv) :
    t.textRateInv := by
  cases h with
  | formats text hlen => exact ⟨s.textInv_putText hlen, hs.2⟩
  | clears => exact State.textRateInv_clearFrame hs
  | rejects => exact State.textRateInv_clearFrame hs
  | seals => exact State.textRateInv_putFrame hs
  | stores => exact State.textRateInv_putFrame hs
  | samples => exact ⟨hs.1, fun hvalid => absurd hvalid (by simp)⟩
  | _ => exact hs

theorem HostEffect.keeps_textRateInv {s t : State} (h : HostEffect s t) (hs : s.textRateInv) :
    t.textRateInv := by
  cases h with
  | command word _ hcmd => exact hcmd.keeps_textRateInv hs
  | relayouts c => exact State.textRateInv_clearFrame (s := { s with condEn := c }) hs
  | writesFrame q data be =>
    exact State.writeFrameWord_keeps (fun _ _ _ _ => State.textRateInv_putFrame) q.val data be hs
  | _ => exact hs

/-- RESET leaves an empty text and no rate (R260). -/
theorem State.textRateInv_resetStep (s : State) : s.resetStep.textRateInv := by
  refine ⟨⟨Nat.zero_le 16, fun k _ hhi => ?_⟩, fun _ => ⟨rfl, rfl⟩⟩
  have hbelow : ¬frameBase ≤ fmtBase + k := by simp only [frameBase, fmtBase]; omega
  exact if_neg hbelow

/-- Settles O59: FMT stores a text of at most 16 bytes with zeros after it, PPOLL makes a sample valid
as it stores it, and outside RESET nothing else writes FMTBUF, FMTLEN, RATE or LAST_SAMPLE. -/
theorem textAndRateInvariantsKept : Obligations.TextAndRateInvariantsKept :=
  fun _ _ htext hrate h => step_keeps (P := State.textRateInv) State.textRateInv_resetStep (fun _ _ => id)
    (fun _ _ => HostEffect.keeps_textRateInv) (fun _ _ _ _ _ _ => id) ⟨htext, hrate⟩ h

end Sys2Proof.Machine
end

section
/-! PROOF. What commands and host accesses leave alone: the configuration by every command
(10_state.md R29, R30, R36), POWER by every host access but an FTICK command (R27, R37, R221). -/

namespace Sys2Proof.Machine

/-! ### The configuration -/

/-- The registers that the host sets, and the time and edge level that the other agents set (R28, R29,
R30, R36), are the same in both states. -/
def sameConfiguration (s t : State) : Prop :=
  t.hotTh = s.hotTh ∧ t.coldTh = s.coldTh ∧ t.vmin = s.vmin ∧ t.evalPeriod = s.evalPeriod ∧
    t.sampleMin = s.sampleMin ∧ t.rptPeriod = s.rptPeriod ∧ t.condEn = s.condEn ∧
    t.nowMs = s.nowMs ∧ t.edgePrev = s.edgePrev

/-- None of the ways a command can change the state touches the configuration. -/
theorem CommandEffect.sameConfiguration {s t : State} (h : CommandEffect s t) :
    sameConfiguration s t := by
  cases h <;> exact ⟨rfl, rfl, rfl, rfl, rfl, rfl, rfl, rfl, rfl⟩

/-- Settles O55: every command answers a next state by one of its effects. -/
theorem commandsKeepConfiguration : Obligations.CommandsKeepConfiguration := by
  intro i s
  obtain ⟨t, hexec, heffect⟩ := exec_effect i s
  exact ⟨t, hexec, heffect.sameConfiguration⟩

/-! ### POWER -/

/-- A command that is no FTICK leaves POWER (R221). -/
theorem exec_power_of_ne_ftick {i : Instr} {s t : State} (h : exec i s = .next t)
    (hi : ∀ ty ra rb, i ≠ .ftick ty ra rb) : t.power = s.power := by
  cases i with
  | ftick ty ra rb => exact absurd rfl (hi ty ra rb)
  | fmt | fverify | fset | fget | ppoll =>
    simp only [exec, execFmt, execFverify, execFset, execFget, execPpoll] at h
    split at h <;> cases h <;> rfl
  | _ => cases h; rfl

theorem runCommand_power {word : Word} {s t : State} (h : runCommand word s = .next t)
    (hword : ∀ ty ra rb, decode word ≠ .ok (.ftick ty ra rb)) : t.power = s.power := by
  unfold runCommand at h
  cases hdec : decode word with
  | ok i =>
    rw [hdec] at h hword
    exact exec_power_of_ne_ftick (s := { s with cmdWord := word }) h
      fun ty ra rb heq => hword ty ra rb (congrArg _ heq)
  | error r => rw [hdec] at h; cases h; rfl

@[simp] theorem State.writeStatus_power (s : State) (data : Word) :
    (s.writeStatus data).power = s.power := by
  unfold State.writeStatus
  split <;> rfl

@[simp] theorem State.writeCtrl_power (s : State) (data : Word) :
    (s.writeCtrl data).power = s.power := by
  unfold State.writeCtrl
  split <;> rfl

@[simp] theorem State.writeFrameWord_power (s : State) (q : Nat) (data : Word) (be : BitVec 4) :
    (s.writeFrameWord q data be).power = s.power :=
  State.writeFrameWord_keeps (P := fun u => u.power = s.power) (fun _ _ _ _ => id) q data be rfl

/-- A write to a register leaves POWER, unless it is a write of an FTICK command to CMD. -/
theorem State.writeReg_power {s t : State} {r : HostReg} {data : Word} {be : BitVec 4}
    (h : s.writeReg r data be = .next t)
    (hcmd : r = .cmd → ∀ ty ra rb, decode data ≠ .ok (.ftick ty ra rb)) : t.power = s.power := by
  cases r with
  | cmd => exact runCommand_power h (hcmd rfl)
  | status => cases h; exact s.writeStatus_power data
  | ctrl => cases h; exact s.writeCtrl_power data
  | frame q => cases h; exact s.writeFrameWord_power q.val data be
  | _ => cases h; rfl

/-- The host access is no write of an FTICK command to CMD. -/
def HostAccess.noFtick (access : HostAccess) : Prop :=
  ∀ a w ty ra rb, access = .write a w 0xF → hostReg a = .cmd → decode w ≠ .ok (.ftick ty ra rb)

theorem hostStep_power {access : HostAccess} {s t : State} (h : hostStep access s = .next t)
    (hno : access.noFtick) : t.power = s.power := by
  cases access with
  | read addr => cases h; rfl
  | write addr data be =>
    simp only [hostStep, State.hostWrite] at h
    split at h
    case isTrue hbe =>
      refine State.writeReg_power h fun hcmd ty ra rb => ?_
      have hfull : be = 0xF := by simpa [hcmd, HostReg.isFrame] using hbe
      exact hno addr data ty ra rb (by rw [hfull]) hcmd
    case isFalse => cases h; rfl

/-- A step that takes an instant without RESET runs the instant's host access, if it has one, then its
edge and its tick (R247). -/
theorem step_without_reset {s t : State} {i : Instant} {rest : List Instant}
    (hin : s.inputs = i :: rest) (hreset : i.reset = false) (h : step s = .next t) :
    ∃ u, t = u.edgeAndTick i ∧
      ((i.host = none ∧ u = { s with inputs := rest }) ∨
        ∃ access, i.host = some access ∧ hostStep access { s with inputs := rest } = .next u) := by
  simp only [step, hin, runInstant, hreset] at h
  cases hhost : i.host with
  | none => rw [hhost] at h; cases h; exact ⟨_, rfl, .inl ⟨rfl, rfl⟩⟩
  | some access =>
    obtain ⟨u, hu, -⟩ := hostStep_effect access { s with inputs := rest }
    simp only [hhost, hu] at h
    cases h
    exact ⟨u, rfl, .inr ⟨access, rfl, hu⟩⟩

@[simp] theorem State.edgeAndTick_power (s : State) (i : Instant) :
    (s.edgeAndTick i).power = s.power := by
  obtain ⟨_, _, _, _, _, h⟩ := s.edgeAndTick_changesOnlyTimers i
  rw [h]

/-- Settles O41: neither a host access that runs no FTICK nor the edge and the tick write POWER, and
FAN_OUT is POWER (R37). -/
theorem onlyFtickChangesPower : Obligations.OnlyFtickChangesPower := by
  intro s t i rest hin h hreset hno
  suffices hpower : t.power = s.power from ⟨hpower, hpower⟩
  obtain ⟨u, rfl, ⟨-, rfl⟩ | ⟨access, hhost, hu⟩⟩ := step_without_reset hin hreset h
  · exact State.edgeAndTick_power _ i
  · have hacc : access.noFtick := fun a w ty ra rb ha =>
      hno a w ty ra rb (hhost.trans (congrArg _ ha))
    exact (u.edgeAndTick_power i).trans (hostStep_power (s := { s with inputs := rest }) hu hacc)

end Sys2Proof.Machine
end

section
/-! PROOF. The host's view of the registers: what a host access to each offset names (20_memory.md
R61, R63, R68), and from it the reads and the full writes of the word registers (10_state.md R22, R23,
R27 to R31). -/

namespace Sys2Proof.Machine

/-! ### The register map -/

/-- Bits 1:0 of an address are ignored (R68). -/
theorem hostReg_and_mask (a : BitVec 8) : hostReg (a &&& 0xFC) = hostReg a := by
  have hword : (a &&& 0xFC).toNat / 4 = a.toNat / 4 := by
    have hshift : (a &&& 0xFC) >>> 2 = a >>> 2 := by
      apply BitVec.eq_of_getLsbD_eq
      intro k hk
      interval_cases k <;> simp
    simpa [BitVec.toNat_ushiftRight, Nat.shiftRight_eq_div_pow] using congrArg BitVec.toNat hshift
  unfold hostReg
  rw [hword]

/-- The offsets from 0x90 on are reserved (R63). -/
theorem hostReg_of_ge (a : BitVec 8) (h : 0x90 ≤ a) : hostReg a = .reserved := by
  have hword : 36 ≤ a.toNat / 4 := by
    have : 0x90 ≤ a.toNat := h
    omega
  unfold hostReg
  split
  case h_35 => rfl
  all_goals omega

/-- The offset of operand register r (R61). -/
theorem hostReg_operand (r : Reg) : hostReg (BitVec.ofNat 8 (0x10 + 4 * r.val)) = .operand r := by
  revert r; decide

theorem State.hostRead_operand (s : State) (r : Reg) :
    s.hostRead (BitVec.ofNat 8 (0x10 + 4 * r.val)) = s.reg r := by
  rw [State.hostRead, hostReg_operand]; rfl

/-- A host write with all four byte enables reaches the register it names (R69). -/
theorem State.hostWrite_full (s : State) (a : BitVec 8) (v : Word) :
    s.hostWrite a v 0xF = s.writeReg (hostReg a) v 0xF :=
  if_pos (by simp)

theorem State.hostWrite_operand (s : State) (r : Reg) (v : Word) :
    s.hostWrite (BitVec.ofNat 8 (0x10 + 4 * r.val)) v 0xF = .next (s.setReg r v) := by
  rw [State.hostWrite_full, hostReg_operand]; rfl

/-- A read of CTRL shows COND_EN at bit 0 (R28). -/
theorem State.hostRead_ctrl (s : State) : s.hostRead 0x0C = if s.condEn then 1 else 0 := rfl

/-- A read of FRAMELEN shows the layout's length (R30). -/
theorem State.hostRead_frameLen (s : State) : s.hostRead 0x68 = if s.condEn then 15 else 14 := by
  change BitVec.ofNat 32 (if s.condEn then 15 else 14) = _
  split <;> rfl

/-- A read of RPT_PERIOD zero-extends its 16 bits (R29). -/
theorem State.hostRead_rptPeriod (s : State) : s.hostRead 0x48 = s.rptPeriod.setWidth 32 := rfl

theorem State.hostRead_status (s : State) : s.hostRead 0x04 = s.statusWord := rfl

theorem State.hostWrite_status (s : State) (v : Word) :
    s.hostWrite 0x04 v 0xF = .next (s.writeStatus v) := rfl

theorem State.hostWrite_ctrl (s : State) (v : Word) :
    s.hostWrite 0x0C v 0xF = .next (s.writeCtrl v) := rfl

/-! ### STATUS -/

/-- A flag placed at bit `lo` of a word is that bit and no other. -/
theorem getLsbD_bitsAt_ofBool (lo : Nat) (flag : Bool) (k : Nat) (hk : k < 32) :
    (bitsAt lo (BitVec.ofBool flag)).getLsbD k = (decide (k = lo) && flag) := by
  rw [getLsbD_bitsAt, BitVec.getLsbD_ofBool]
  grind

/-- STATUS, bit by bit (R27). -/
theorem State.getLsbD_statusWord (s : State) (k : Nat) (hk : k < 32) :
    s.statusWord.getLsbD k =
      (decide (k = 8) && s.ill || decide (k = 3) && decide (s.forceRemain ≠ 0) ||
        decide (k = 2) && s.power || decide (k = 1) && s.rateValid ||
        decide (k = 0) && s.frameSealed) := by
  have hforce : s.force = decide (s.forceRemain ≠ 0) :=
    Bool.eq_iff_iff.2 (by simp [State.force])
  simp only [State.statusWord, BitVec.getLsbD_or, getLsbD_bitsAt_ofBool _ _ k hk, hforce]

/-- Settles O42: each flag is one placed bit of STATUS, and no other bit is placed. -/
theorem statusShowsFlags : Obligations.StatusShowsFlags := by
  intro s k hk
  rw [s.hostRead_status, s.getLsbD_statusWord k hk]
  split_ifs with h0 h1 h2 h3 h8
  case pos | pos | pos | pos | pos => subst k; simp
  case neg => simp [h0, h1, h2, h3, h8]

/-- Settles O43: a write of STATUS acknowledges for a 1 in bit 8 and does nothing for a 0. -/
theorem statusWriteClearsIll : Obligations.StatusWriteClearsIll := by
  intro s v
  rw [s.hostWrite_status, State.writeStatus]
  cases v.getLsbD 8 with
  | true => simp [State.acknowledgeIllegal]
  | false => simp

/-! ### Reads -/

/-- Settles O46: the register map names the register of each offset (R61), CMD and every offset that
names none read 0, and the reads after reset are computed one by one. -/
theorem resetReads : Obligations.ResetReads := by
  refine ⟨fun s => ?registers, fun s a h => ?reserved, ?afterReset⟩
  case registers =>
    refine ⟨rfl, s.hostRead_ctrl, s.hostRead_operand, rfl, rfl, rfl, rfl, rfl, rfl,
      ?_, rfl, rfl, rfl, rfl, ?_, ?_, s.hostRead_frameLen⟩
    · exact BitVec.toNat_setWidth_of_le (by decide)
    · exact BitVec.toNat_setWidth_of_le (by decide)
    · exact BitVec.toNat_setWidth_of_le (by decide)
  case reserved =>
    rcases h with h | h
    · rw [State.hostRead, ← hostReg_and_mask]
      simp only [List.mem_cons, List.not_mem_nil, or_false] at h
      rcases h with h | h | h <;> rw [h] <;> rfl
    · rw [State.hostRead, hostReg_of_ge a h]; rfl
  case afterReset =>
    simp only [List.forall_mem_cons, List.not_mem_nil, false_implies, implies_true, and_true]
    and_intros <;> decide +kernel

/-! ### Writes -/

/-- Settles O49: a full write reaches the register its offset names (R61), and a read of that offset
finds it. -/
theorem hostReadsBackWrites : Obligations.HostReadsBackWrites := by
  refine ⟨fun s r v => ?operand, fun s v => ⟨rfl, rfl, rfl, rfl, rfl, rfl⟩, fun s a v h => ?config,
    fun s v => ⟨_, rfl, ?rptPeriod⟩⟩
  case operand =>
    refine ⟨_, s.hostWrite_operand r v, changesOnlyReg_setReg s r v, s.reg_setReg_same r v, ?_⟩
    rw [State.hostRead_operand, State.reg_setReg_same]
  case config =>
    simp only [List.mem_cons, List.not_mem_nil, or_false] at h
    rcases h with rfl | rfl | rfl | rfl | rfl <;> exact ⟨_, rfl, rfl⟩
  case rptPeriod =>
    rw [State.hostRead_rptPeriod]
    apply BitVec.eq_of_toNat_eq
    rw [BitVec.toNat_setWidth_of_le (by decide), BitVec.toNat_setWidth, BitVec.toNat_and]
    exact (Nat.and_two_pow_sub_one_eq_mod _ 16).symm

/-- Settles O52: a change of COND_EN is FCLR's effect on the state with COND_EN changed (log 12). -/
theorem ctrlChangeClearsFrame : Obligations.CtrlChangeClearsFrame := by
  intro s v
  refine ⟨fun hsame => ?_, fun hchange => ?_⟩
  · rw [State.hostWrite_ctrl, State.writeCtrl, if_pos hsame]
  · refine ⟨{ s with condEn := v.getLsbD 0 }.clearFrame, ?_, rfl, rfl, rfl, State.hostRead_ctrl _,
      State.hostRead_frameLen _⟩
    rw [State.hostWrite_ctrl, State.writeCtrl, if_neg hchange]

end Sys2Proof.Machine
end

section
/-! PROOF. The byte arrays: their canonical form, which every step keeps (20_memory.md R60, R62), the
bytes FCLR leaves in FRAME (R66), and the host's accesses to both arrays byte lane by byte lane (R62,
R67). -/

namespace Sys2Proof.Machine

/-! ### The canonical form -/

/-- A frame write below FRAMELEN lies inside FRAME, so it keeps the canonical form. -/
theorem State.wf_putFrame_of_le_frameLen {s : State} {k : Nat} {bytes : List Byte} {mark : Bool}
    (hk : k + bytes.length ≤ s.frameLen) (hs : s.mem.wf) : (s.putFrame k bytes mark).mem.wf := by
  have hlen : s.frameLen ≤ 15 := layoutLen_le _
  exact s.wf_putFrame k bytes mark hs (by omega)

theorem CommandEffect.keeps_wf {s t : State} (h : CommandEffect s t) (hs : s.mem.wf) : t.mem.wf := by
  cases h with
  | formats text => exact s.wf_putText text hs
  | clears => exact s.wf_clearFrame hs
  | rejects => exact s.wf_clearFrame hs
  | seals =>
    have hpos : 0 < s.frameLen := layoutLen_pos _
    exact State.wf_putFrame_of_le_frameLen (by rw [List.length_singleton]; omega) hs
  | stores k bytes hk => exact State.wf_putFrame_of_le_frameLen hk.le hs
  | _ => exact hs

theorem HostEffect.keeps_wf {s t : State} (h : HostEffect s t) (hs : s.mem.wf) : t.mem.wf := by
  cases h with
  | command word _ hcmd => exact hcmd.keeps_wf hs
  | relayouts c => exact State.wf_clearFrame { s with condEn := c } hs
  | writesFrame q data be =>
    exact State.writeFrameWord_keeps (P := fun u => u.mem.wf)
      (fun _ _ _ hk => State.wf_putFrame_of_le_frameLen hk) q.val data be hs
  | _ => exact hs

/-- Settles O56: RESET leaves no cell listed, every store of a command or of the host lies inside the
two arrays, and the edge and the tick store nothing. -/
theorem memoryStaysCanonical : Obligations.MemoryStaysCanonical :=
  fun _ _ hwf h => step_keeps (P := fun s => s.mem.wf) (fun _ => State.wf_reset) (fun _ _ => id)
    (fun _ _ => HostEffect.keeps_wf) (fun _ _ _ _ _ _ => id) hwf h

/-! ### The cleared frame -/

/-- The CRC of the cleared fields with COND present (R66). -/
theorem crc8_clearedFields_true : crc8 (clearedFields true) = 0x4B := by decide +kernel

/-- The CRC of the cleared fields without COND (R66). -/
theorem crc8_clearedFields_false : crc8 (clearedFields false) = 0xD8 := by decide +kernel

/-- The sixteen bytes FCLR leaves, as numbers (R66). -/
theorem clearedFrame_bytes (condEn : Bool) :
    clearedFrame condEn = if condEn then
      [0x00, 0x80, 0x80, 0x00, 0x80, 0x80, 0x00, 0x00, 0x80, 0x00, 0x00, 0x00, 0x00, 0x80, 0xB4, 0x00]
    else
      [0x00, 0x80, 0x80, 0x00, 0x80, 0x80, 0x00, 0x80, 0x00, 0x00, 0x00, 0x00, 0x80, 0x27, 0x00, 0x00] := by
  cases condEn with
  | true => rw [clearedFrame, crc8_clearedFields_true]; rfl
  | false => rw [clearedFrame, crc8_clearedFields_false]; rfl

/-- After FCLR's effect FRAME holds the cleared bytes of the layout (R161). -/
theorem State.frameHolds_clearFrame (s : State) : frameHolds s.clearFrame (clearedFrame s.condEn) :=
  fun k hk => s.frameByte_clearFrame k (hk.trans_eq (clearedFrame_length _))

/-- The frame of FCLR's effect. -/
theorem State.changesOnlyFrame_clearFrame (s : State) : changesOnlyFrame 0 16 s s.clearFrame := by
  have h := changesOnlyFrame_putFrame s 0 (clearedFrame s.condEn) false
  rwa [clearedFrame_length] at h

/-- Settles O22: FCLR is the store of `clearedFrame`, whose bytes are R66's. -/
theorem fclrLeavesClearedFrame : Obligations.FclrLeavesClearedFrame := by
  refine ⟨crc8_clearedFields_true, crc8_clearedFields_false, fun s =>
    ⟨s.clearFrame, rfl, rfl, s.changesOnlyFrame_clearFrame, ?_⟩⟩
  rw [← clearedFrame_bytes]
  exact s.frameHolds_clearFrame

/-! ### Host writes to FRAME -/

/-- A frame change lies within any wider range of bytes. -/
theorem changesOnlyFrame.mono {k n k' n' : Nat} {s t : State} (h : changesOnlyFrame k n s t)
    (hlo : k' ≤ k) (hhi : k + n ≤ k' + n') : changesOnlyFrame k' n' s t := by
  obtain ⟨hreg, hmem, hrest⟩ := h
  exact ⟨hreg, fun a ha => hmem a (by omega), hrest⟩

theorem changesOnlyFrame.trans {k n : Nat} {s t u : State} (hst : changesOnlyFrame k n s t)
    (htu : changesOnlyFrame k n t u) : changesOnlyFrame k n s u := by
  obtain ⟨hreg, hmem, hrest⟩ := hst
  obtain ⟨hreg', hmem', hrest'⟩ := htu
  refine ⟨fun r => (hreg' r).trans (hreg r), fun a ha => (hmem' a ha).trans (hmem a ha), ?_⟩
  rw [hrest', hrest]

section
variable (s : State) (k : Nat) (v : Byte) (enabled : Bool)

@[simp] theorem State.frameLen_writeLane : (s.writeLane k v enabled).frameLen = s.frameLen := by
  unfold State.writeLane
  split <;> rfl

/-- FRAME after one byte lane of a host write (R62). -/
theorem State.frameByte_writeLane (j : Nat) :
    (s.writeLane k v enabled).frameByte j =
      if j = k ∧ enabled = true ∧ k < s.frameLen then v else s.frameByte j := by
  unfold State.writeLane
  by_cases hwrite : enabled = true ∧ k < s.frameLen
  · rw [if_pos hwrite, State.frameByte_putFrame, List.length_singleton]
    by_cases hj : j = k
    · subst hj; simp [hwrite]
    · rw [if_neg (by omega), if_neg (by tauto)]
  · rw [if_neg hwrite, if_neg (by tauto)]

/-- SEALED after one byte lane of a host write: a byte written clears it (R62). -/
theorem State.frameSealed_writeLane :
    (s.writeLane k v enabled).frameSealed = true ↔
      s.frameSealed = true ∧ (enabled = true → s.frameLen ≤ k) := by
  unfold State.writeLane
  split
  case isTrue hwrite => simp [hwrite]
  case isFalse hignored =>
    have hk : enabled = true → s.frameLen ≤ k := fun he => Nat.le_of_not_lt (hignored ⟨he, ·⟩)
    tauto

/-- The frame of one byte lane of a host write. -/
theorem State.changesOnlyFrame_writeLane :
    changesOnlyFrame k 1 s (s.writeLane k v enabled) := by
  unfold State.writeLane
  split
  case isTrue => exact changesOnlyFrame_putFrame s k [v] false
  case isFalse => exact ⟨fun _ => rfl, fun _ _ => rfl, rfl⟩

end

section
variable (s : State) (q : Nat) (data : Word) (be : BitVec 4)

/-- The bytes of a FRAME word after a host write of it (R62). -/
theorem State.frameByte_writeFrameWord (j : Nat) (hj : j < 4) :
    (s.writeFrameWord q data be).frameByte (4 * q + j) =
      if be.getLsbD j = true ∧ 4 * q + j < s.frameLen then data.extractLsb' (8 * j) 8
      else s.frameByte (4 * q + j) := by
  simp only [State.writeFrameWord, State.frameByte_writeLane, State.frameLen_writeLane]
  interval_cases j <;> simp

/-- SEALED after a host write of a FRAME word: it stays only if no lane wrote a byte (R62). -/
theorem State.frameSealed_writeFrameWord :
    (s.writeFrameWord q data be).frameSealed = true ↔ s.frameSealed = true ∧
      ∀ j, j < 4 → be.getLsbD j = true → s.frameLen ≤ 4 * q + j := by
  simp only [State.writeFrameWord, State.frameSealed_writeLane, State.frameLen_writeLane, and_assoc]
  refine and_congr_right fun _ => ⟨?_, fun h => ⟨h 0 ?_, h 1 ?_, h 2 ?_, h 3 ?_⟩⟩
  · rintro ⟨h0, h1, h2, h3⟩ j hj
    interval_cases j
    exacts [h0, h1, h2, h3]
  all_goals decide

/-- The frame of a host write of a FRAME word: the word's four bytes. -/
theorem State.changesOnlyFrame_writeFrameWord :
    changesOnlyFrame (4 * q) 4 s (s.writeFrameWord q data be) := by
  have hlane (u : State) (j : Nat) (v : Byte) (enabled : Bool) (hj : j < 4) :
      changesOnlyFrame (4 * q) 4 u (u.writeLane (4 * q + j) v enabled) :=
    (u.changesOnlyFrame_writeLane _ v enabled).mono (by omega) (by omega)
  exact (((hlane _ 0 _ _ (by decide)).trans (hlane _ 1 _ _ (by decide))).trans
    (hlane _ 2 _ _ (by decide))).trans (hlane _ 3 _ _ (by decide))

end

/-- The offset of FRAME word q (R61). -/
theorem hostReg_frame (q : Fin 4) : hostReg (BitVec.ofNat 8 (0x80 + 4 * q.val)) = .frame q := by
  revert q; decide

/-- A host write to FRAME word q reaches it whatever the byte enables are (R62). -/
theorem State.hostWrite_frame (s : State) (q : Fin 4) (v : Word) (be : BitVec 4) :
    s.hostWrite (BitVec.ofNat 8 (0x80 + 4 * q.val)) v be = .next (s.writeFrameWord q.val v be) := by
  rw [State.hostWrite, hostReg_frame]
  rfl

/-- Settles O50: the write is the four lane writes of the word. -/
theorem frameWriteByLanes : Obligations.FrameWriteByLanes :=
  fun s q v be => ⟨_, s.hostWrite_frame q v be, s.frameByte_writeFrameWord q.val v be,
    s.frameSealed_writeFrameWord q.val v be, s.changesOnlyFrame_writeFrameWord q.val v be⟩

/-! ### Host reads of the byte arrays -/

/-- The offset of FMTBUF word q (R61). -/
theorem hostReg_fmtBuf (q : Fin 4) : hostReg (BitVec.ofNat 8 (0x70 + 4 * q.val)) = .fmtBuf q := by
  revert q; decide

/-- The byte lanes of a bus word, lane 0 least significant (R62, R67). -/
theorem extractLsb'_laneWord (lane : Nat → Byte) (j : Nat) (hj : j < 4) :
    (laneWord lane).extractLsb' (8 * j) 8 = lane j := by
  apply BitVec.eq_of_getLsbD_eq
  intro i hi
  simp only [laneWord, BitVec.getLsbD_extractLsb', BitVec.getLsbD_or, getLsbD_bitsAt, hi]
  interval_cases j <;> interval_cases i <;> simp

/-- Settles O51: a word read from either array is the lane word of its four bytes. -/
theorem byteArraysReadByLanes : Obligations.ByteArraysReadByLanes := by
  intro s q j hj
  rw [State.hostRead, State.hostRead, hostReg_frame, hostReg_fmtBuf]
  exact ⟨extractLsb'_laneWord (fun j => s.hostFrameByte (4 * q.val + j)) j hj,
    extractLsb'_laneWord (fun j => s.fmtByte (4 * q.val + j)) j hj⟩

end Sys2Proof.Machine
end

section
/-! PROOF. The rules of every host access: a read has no side effect (20_memory.md R69), address bits
1:0 are ignored (R68), and which writes are ignored (R62, R63, R69, R90). -/

namespace Sys2Proof.Machine

/-! ### Reads -/

/-- What a read returns does not depend on the instants to come. -/
theorem State.hostRead_inputs (s : State) (rest : List Instant) (a : BitVec 8) :
    { s with inputs := rest }.hostRead a = s.hostRead a := by
  unfold State.hostRead
  cases hostReg a <;> rfl

/-- Settles O47: the step is the host's read on the state with the instant taken. -/
theorem readsHaveNoSideEffect : Obligations.ReadsHaveNoSideEffect := by
  intro s a rest hin
  have hstep : step s =
      .next { s with inputs := rest, readData := { s with inputs := rest }.hostRead a } := by
    rw [step, hin]
    rfl
  rw [hstep, State.hostRead_inputs]

/-! ### Address bits -/

/-- Settles O53: the address and the masked one name the same register. -/
theorem lowAddressBitsIgnored : Obligations.LowAddressBitsIgnored := by
  intro s a v be
  rw [State.hostRead, State.hostRead, State.hostWrite, State.hostWrite, hostReg_and_mask]
  exact ⟨rfl, rfl⟩

/-! ### Ignored writes -/

/-- The registers the host cannot write: read-only ones, FMTBUF, and reserved offsets (R61, R63). -/
def HostReg.ignoresWrites : HostReg → Bool
  | .errCmd | .nowMs | .lastSample | .rate | .lastEval | .forceRemain | .forceTier | .fmtLen
  | .frameLen | .fmtBuf _ | .reserved => true
  | _ => false

theorem State.writeReg_of_ignoresWrites (s : State) {r : HostReg} (v : Word) (be : BitVec 4)
    (h : r.ignoresWrites = true) : s.writeReg r v be = .next s := by
  cases r with
  | errCmd | nowMs | lastSample | rate | lastEval | forceRemain | forceTier | fmtLen | frameLen
  | fmtBuf | reserved => rfl
  | _ => cases h

/-- A host write of any word, with any byte enables, to such a register changes nothing. -/
theorem State.hostWrite_of_ignoresWrites (s : State) {a : BitVec 8} (v : Word) (be : BitVec 4)
    (h : (hostReg a).ignoresWrites = true) : s.hostWrite a v be = .next s := by
  rw [State.hostWrite, s.writeReg_of_ignoresWrites v be h, ite_self]

/-- Outside FRAME a write without all four byte enables changes nothing (R69, R90). -/
theorem State.hostWrite_partial (s : State) {a : BitVec 8} (v : Word) {be : BitVec 4}
    (ha : (hostReg a).isFrame = false) (hbe : be ≠ 0xF) : s.hostWrite a v be = .next s :=
  if_neg (by simpa [ha] using hbe)

/-- FRAME lies at the offsets 0x80..0x8F alone (R61). -/
theorem hostReg_isFrame_eq_false {a : BitVec 8} (h : a < 0x80 ∨ 0x90 ≤ a) :
    (hostReg a).isFrame = false := by
  have hword : a.toNat / 4 < 0x20 ∨ 0x24 ≤ a.toNat / 4 := by
    have : a.toNat < 0x80 ∨ 0x90 ≤ a.toNat := h
    omega
  unfold hostReg
  split
  case h_31 | h_32 | h_33 | h_34 => omega
  all_goals rfl

/-- The offsets 0x70..0x7F are FMTBUF's (R61). -/
theorem hostReg_fmtBuf_range {a : BitVec 8} (hlo : 0x70 ≤ a) (hhi : a < 0x80) :
    ∃ q, hostReg a = .fmtBuf q := by
  have hword :
      a.toNat / 4 = 0x1C ∨ a.toNat / 4 = 0x1D ∨ a.toNat / 4 = 0x1E ∨ a.toNat / 4 = 0x1F := by
    have hlo : 0x70 ≤ a.toNat := hlo
    have hhi : a.toNat < 0x80 := hhi
    omega
  unfold hostReg
  rcases hword with h | h | h | h <;> rw [h] <;> exact ⟨_, rfl⟩

/-- The read-only registers' offsets and the reserved ones below FMTBUF (R61, R63). -/
theorem ignoresWrites_of_mem (a : BitVec 8)
    (h : a ∈ ([0x08, 0x30, 0x4C, 0x50, 0x54, 0x58, 0x5C, 0x60, 0x64, 0x68, 0x6C] : List (BitVec 8))) :
    (hostReg a).ignoresWrites = true := by
  simp only [List.mem_cons, List.not_mem_nil, or_false] at h
  rcases h with rfl | rfl | rfl | rfl | rfl | rfl | rfl | rfl | rfl | rfl | rfl <;> rfl

/-- Settles O48: no offset outside FRAME takes a partial write, and each of the named offsets names a
register that ignores writes. -/
theorem ignoredWritesChangeNothing : Obligations.IgnoredWritesChangeNothing := by
  refine ⟨fun s a v be ha hbe => s.hostWrite_partial v (hostReg_isFrame_eq_false ha) hbe,
    fun s a v be h => s.hostWrite_of_ignoresWrites v be ?_⟩
  rcases h with hlist | ⟨hlo, hhi⟩ | hge
  · rw [← hostReg_and_mask]
    exact ignoresWrites_of_mem _ hlist
  · obtain ⟨q, hq⟩ := hostReg_fmtBuf_range hlo hhi
    rw [hq]
    rfl
  · rw [hostReg_of_ge a hge]
    rfl

end Sys2Proof.Machine
end

section
/-! PROOF. The command word (30_encoding.md): decoding undoes encoding format by format (R91 to R95), a
word is read through its format's fields alone (R96), and a host write of CMD runs what its word
decodes to (R90). -/

namespace Sys2Proof

/-! ### Decoding an encoded command, by format -/

/-- A type's codes are read as that type (R93), so what a typed command answers is what it answers for
that type. -/
theorem typed_of_codes {f : CmdFields} {t : FxTy} {k : FxTy → Except IllegalReason Instr}
    {r : Except IllegalReason Instr} (hty : f.ty = t.int.code) (hdec : f.dec = t.dec.bit)
    (hk : k t = r) : typed f k = r := by
  simp [typed, hty, hdec, hk]

theorem decodeDAT_fieldsDAT (mk : FxTy → Reg → Reg → Instr) (op : BitVec 8) (t : FxTy) (rd ra : Reg) :
    decodeDAT mk (fieldsDAT op t rd ra) = .ok (mk t rd ra) :=
  typed_of_codes (t := t) rfl rfl rfl

theorem decodeDABT_fieldsDABT (mk : FxTy → Reg → Reg → Reg → Instr) (op : BitVec 8) (t : FxTy)
    (rd ra rb : Reg) : decodeDABT mk (fieldsDABT op t rd ra rb) = .ok (mk t rd ra rb) :=
  typed_of_codes (t := t) rfl rfl rfl

/-- A field's index is read as that field (R64, R94). -/
theorem decodeField_of_index {f : CmdFields} {t : FxTy} {field : Field} (hty : f.ty = t.int.code)
    (hdec : f.dec = t.dec.bit) (hidx : f.imm5 = field.index) (mk : FxTy → Field → Instr) :
    decodeField mk f = .ok (mk t field) :=
  typed_of_codes hty hdec (by rw [hidx, Field.ofIndex_index])

theorem flagBits_getLsbD_zero (left plus : Bool) : (flagBits left plus).getLsbD 0 = left := by
  cases left <;> cases plus <;> rfl

theorem flagBits_getLsbD_one (left plus : Bool) : (flagBits left plus).getLsbD 1 = plus := by
  cases left <;> cases plus <;> rfl

/-- FMT's width and flags are read back where the width is legal (R94, R97 item 3). -/
theorem decodeXF_encodeFields (t : FxTy) (ra : Reg) {width : Fin 32} (left plus : Bool)
    (h : width.val ≤ 16) :
    decodeXF (encodeFields (.fmt t ra width left plus)) = .ok (.fmt t ra width left plus) := by
  refine typed_of_codes (t := t) rfl rfl ((if_neg (Nat.not_lt.2 h)).trans ?_)
  exact congrArg₂ (fun l p => Except.ok (Instr.fmt t ra width l p)) (flagBits_getLsbD_zero left plus)
    (flagBits_getLsbD_one left plus)

/-- Settles O1: the word gives the fields back, and each opcode's format reads its own operands from
them; only FMT has an operand value (a width above 16) that the decoder rejects. -/
theorem decodeOfEncode : Obligations.DecodeOfEncode := by
  intro i hwf
  rw [decode_encode_fields]
  cases i with
  | nop | fclr | fseal | fpress | fverify | ppoll | prate => rfl
  | inval t | classify t | ftick t =>
    unfold decodeFields
    exact typed_of_codes (t := t) rfl rfl rfl
  | fromRaw | fromReal | isValid => exact decodeDAT_fieldsDAT _ _ _ _ _
  | add | sub | mul | div | cmpLt | cmpLe | cmpGt | cmpGe | cmpEq | cmpNe =>
    exact decodeDABT_fieldsDABT _ _ _ _ _ _
  | fset | fget => exact decodeField_of_index rfl rfl rfl _
  | fmt t ra width left plus => exact decodeXF_encodeFields t ra left plus (of_decide_eq_true hwf)

/-- Settles O6: each word is the encoding of the well-formed command beside it. -/
theorem manualWordsDecode : Obligations.ManualWordsDecode := by
  have reads {i : Instr} {w : Word} (hwf : i.wellFormed = true) (hw : encode i = w) :
      decode w = .ok i := hw ▸ decodeOfEncode i hwf
  unfold Obligations.ManualWordsDecode
  and_intros <;> exact reads rfl rfl

/-! ### The fields a format does not use -/

section
variable {w v m : Word} (h : w &&& m = v &&& m)
include h

/-- Words that agree on a mask agree on each field the mask covers. -/
theorem extractLsb'_eq_of_and_eq (lo n : Nat) (hm : m.extractLsb' lo n = BitVec.allOnes n) :
    v.extractLsb' lo n = w.extractLsb' lo n := by
  have hand := congrArg (BitVec.extractLsb' lo n) h
  simpa [BitVec.extractLsb'_and, hm] using hand.symm

namespace CmdFields

theorem op_ofWord_congr (hm : (ofWord m).op = BitVec.allOnes 8) : (ofWord v).op = (ofWord w).op :=
  extractLsb'_eq_of_and_eq h _ _ hm

theorem rd_ofWord_congr (hm : (ofWord m).rd = BitVec.allOnes 3) : (ofWord v).rd = (ofWord w).rd :=
  extractLsb'_eq_of_and_eq h _ _ hm

theorem ra_ofWord_congr (hm : (ofWord m).ra = BitVec.allOnes 3) : (ofWord v).ra = (ofWord w).ra :=
  extractLsb'_eq_of_and_eq h _ _ hm

theorem rb_ofWord_congr (hm : (ofWord m).rb = BitVec.allOnes 3) : (ofWord v).rb = (ofWord w).rb :=
  extractLsb'_eq_of_and_eq h _ _ hm

theorem rc_ofWord_congr (hm : (ofWord m).rc = BitVec.allOnes 3) : (ofWord v).rc = (ofWord w).rc :=
  extractLsb'_eq_of_and_eq h _ _ hm

theorem re_ofWord_congr (hm : (ofWord m).re = BitVec.allOnes 3) : (ofWord v).re = (ofWord w).re :=
  extractLsb'_eq_of_and_eq h _ _ hm

theorem ty_ofWord_congr (hm : (ofWord m).ty = BitVec.allOnes 3) : (ofWord v).ty = (ofWord w).ty :=
  extractLsb'_eq_of_and_eq h _ _ hm

theorem dec_ofWord_congr (hm : (ofWord m).dec = BitVec.allOnes 1) :
    (ofWord v).dec = (ofWord w).dec :=
  extractLsb'_eq_of_and_eq h _ _ hm

theorem imm5_ofWord_congr (hm : (ofWord m).imm5 = BitVec.allOnes 5) :
    (ofWord v).imm5 = (ofWord w).imm5 :=
  extractLsb'_eq_of_and_eq h _ _ hm

/-- FMT uses two of the three bits of its flag field, which is where RB is (R94). -/
theorem rb_bit_ofWord_congr (k : Nat) (hm : (ofWord m).rb.getLsbD k = true) :
    (ofWord v).rb.getLsbD k = (ofWord w).rb.getLsbD k := by
  have hand := congrArg (fun x => (ofWord x).rb.getLsbD k) h
  simp only [ofWord, BitVec.extractLsb'_and, BitVec.getLsbD_and] at hand hm ⊢
  simpa [hm] using hand.symm

end CmdFields

open CmdFields in
/-- A typed command is read alike where the mask covers TY and DEC, if what follows the type is (R93). -/
theorem typed_ofWord_congr {j k : FxTy → Except IllegalReason Instr}
    (hty : (ofWord m).ty = BitVec.allOnes 3) (hdec : (ofWord m).dec = BitVec.allOnes 1)
    (hk : ∀ t, j t = k t) : typed (ofWord v) j = typed (ofWord w) k := by
  simp only [typed, ty_ofWord_congr h hty, dec_ofWord_congr h hdec, hk]

end

/-- Every opcode's mask covers the opcode. -/
theorem usedBits_opcode (op : Nat) : (CmdFields.ofWord (usedBits op)).op = BitVec.allOnes 8 := by
  unfold usedBits
  split <;> rfl

open CmdFields in
/-- Settles O2: the words have one opcode, and each opcode's branch of the decoder reads only fields
that the opcode's mask covers. -/
theorem unusedFieldsIgnored : Obligations.UnusedFieldsIgnored := by
  intro w v h
  have hop := op_ofWord_congr h (usedBits_opcode _)
  change w &&& usedBits (ofWord w).op.toNat = v &&& usedBits (ofWord w).op.toNat at h
  unfold decode decodeFields
  rw [hop]
  generalize (ofWord w).op.toNat = op at h ⊢
  split
  case h_1 | h_17 | h_18 | h_26 | h_27 => rfl
  case h_19 | h_22 | h_23 => rw [rd_ofWord_congr h rfl]
  case h_2 => exact typed_ofWord_congr h rfl rfl fun t => by rw [rd_ofWord_congr h rfl]
  case h_3 | h_4 | h_5 =>
    exact typed_ofWord_congr h rfl rfl fun t => by rw [rd_ofWord_congr h rfl, ra_ofWord_congr h rfl]
  case h_6 | h_7 | h_8 | h_9 | h_10 | h_11 | h_12 | h_13 | h_14 | h_15 =>
    exact typed_ofWord_congr h rfl rfl fun t => by
      rw [rd_ofWord_congr h rfl, ra_ofWord_congr h rfl, rb_ofWord_congr h rfl]
  case h_16 =>
    exact typed_ofWord_congr h rfl rfl fun t => by
      simp only [imm5_ofWord_congr h rfl, ra_ofWord_congr h rfl, rb_bit_ofWord_congr h 0 rfl,
        rb_bit_ofWord_congr h 1 rfl]
  case h_20 =>
    exact typed_ofWord_congr h rfl rfl fun t => by
      rw [imm5_ofWord_congr h rfl, ra_ofWord_congr h rfl]
  case h_21 =>
    exact typed_ofWord_congr h rfl rfl fun t => by
      rw [imm5_ofWord_congr h rfl, rd_ofWord_congr h rfl]
  case h_24 =>
    exact typed_ofWord_congr h rfl rfl fun t => by
      rw [rd_ofWord_congr h rfl, ra_ofWord_congr h rfl, rb_ofWord_congr h rfl,
        rc_ofWord_congr h rfl, re_ofWord_congr h rfl]
  case h_25 =>
    exact typed_ofWord_congr h rfl rfl fun t => by
      rw [ra_ofWord_congr h rfl, rb_ofWord_congr h rfl]

/-! ### A host write of CMD -/

namespace Machine

/-- A step that takes a host access runs it, then the instant's edge and tick (R20, R247). -/
theorem step_of_hostStep {s t : State} {i : Instant} {rest : List Instant} {access : HostAccess}
    (hin : s.inputs = i :: rest) (hreset : i.reset = false) (hhost : i.host = some access)
    (h : hostStep access { s with inputs := rest } = .next t) : step s = .next (t.edgeAndTick i) := by
  simp [step, hin, runInstant, hreset, hhost, h]

/-- Where the host alone acts, the step is its access (R20). -/
theorem step_hostInstant {s : State} {access : HostAccess} {rest : List Instant}
    (hin : s.inputs = hostInstant access :: rest) :
    step s = hostStep access { s with inputs := rest } := by
  obtain ⟨t, ht, -⟩ := hostStep_effect access { s with inputs := rest }
  rw [step_of_hostStep hin rfl rfl ht, ht]
  rfl

theorem runCommand_of_decode {w : Word} {i : Instr} (h : decode w = .ok i) (s : State) :
    runCommand w s = exec i { s with cmdWord := w } := by
  rw [runCommand, h]

/-- A full write of any of CMD's four addresses runs the word (R68, R90). -/
theorem State.hostWrite_cmd (s : State) {a : BitVec 8} (w : Word) (ha : a &&& 0xFC = 0x00) :
    s.hostWrite a w 0xF = runCommand w s := by
  rw [State.hostWrite_full, ← hostReg_and_mask, ha]
  rfl

theorem step_commandInstant {s : State} {w : Word} {rest : List Instant} {i : Instr}
    (hin : s.inputs = commandInstant w :: rest) (h : decode w = .ok i) :
    step s = exec i { s with inputs := rest, cmdWord := w } :=
  (step_hostInstant hin).trans (runCommand_of_decode h _)

@[simp] theorem tableWord_toNat (w : Word) : tableWord 32 w.toNat = w := by
  rw [tableWord, Nat.mod_eq_of_lt w.isLt, BitVec.ofNat_toNat, BitVec.setWidth_eq]

/-- Settles O5: the step is the host's write (with the instant's edge and tick after it), the write of
CMD is `runCommand`, and `runCommand` of a word that decodes is its command. -/
theorem stepRunsDecodedCommand : Obligations.StepRunsDecodedCommand := by
  refine ⟨fun s w rest i hin h => step_commandInstant hin h, fun s w i h => ?_,
    fun s t w e k rest i hin h hexec => ?_, fun s a v be rest hin => step_hostInstant hin,
    fun s a v ha => s.hostWrite_cmd v ha⟩
  · refine step_commandInstant (s := s.withFetchWord 32 w.toNat) (rest := s.inputs) ?_ h
    rw [State.withFetchWord, tableWord_toNat]
  · exact step_of_hostStep hin rfl rfl ((runCommand_of_decode h _).trans hexec)

end Machine

end Sys2Proof
end

section
/-! PROOF. The FXU's commands with a register result (41_fixed_point.md R120 to R144): what each of them
writes to RD, as the value of its sources, and from it the statements about NOP, INVAL, FROMRAW,
ISVALID, DIV, the comparisons and invalid operands. -/

namespace Sys2Proof

/-! ### Containers and truncated quotients -/

/-- INV_T is canonical. -/
theorem FxTy.canonical_inv (t : FxTy) : t.canonical t.inv := t.canonical_canon _

/-- FROMRAW's container keeps the low w bits of the word it reads (R123). -/
theorem FxTy.setWidth_canon_val (t : FxTy) (r : Word) :
    (t.canon (t.val r)).setWidth t.width = r.setWidth t.width := by
  rw [t.setWidth_canon, t.ofInt_val]

/-- A word is invalid under a type exactly for the sentinel pattern in its low w bits: the least signed
pattern, or all zeros (R21). -/
theorem FxTy.val_eq_minT_iff (t : FxTy) (r : Word) :
    t.val r = t.minT ↔
      r.setWidth t.width = if t.int.signed then BitVec.intMin t.width else 0 := by
  have hpos : 0 < t.width := t.int.width_pos
  unfold FxTy.val FxTy.minT
  split
  case isTrue =>
    rw [← BitVec.toInt_intMin_of_pos hpos, BitVec.toInt_inj]
  case isFalse =>
    rw [Int.natCast_eq_zero, BitVec.toNat_eq]
    rfl

theorem Decimals.scale_pos (d : Decimals) : 0 < d.scale := by cases d <;> decide

theorem FxTy.scale_pos (t : FxTy) : 0 < t.scale := Int.natCast_pos.2 t.dec.scale_pos

/-- A quotient truncated toward zero never has the sign opposite to the exact quotient's. -/
theorem tdiv_mul_mul_nonneg (x y : Int) : 0 ≤ x.tdiv y * (x * y) := by
  have hnat (m n : Nat) : 0 ≤ (m : Int).tdiv n * (m * n) := by
    rw [← Int.ofNat_tdiv]
    positivity
  obtain ⟨m, rfl | rfl⟩ := x.eq_nat_or_neg <;> obtain ⟨n, rfl | rfl⟩ := y.eq_nat_or_neg <;>
    simpa [Int.neg_tdiv, Int.tdiv_neg] using hnat m n

/-- DIV's quotient floors the absolute value (R129, R133). -/
theorem FxTy.natAbs_scaled_tdiv (t : FxTy) (a b : Int) :
    ((a * t.scale).tdiv b).natAbs = a.natAbs * t.dec.scale / b.natAbs := by
  rw [Int.natAbs_tdiv, Int.natAbs_mul]
  rfl

/-- DIV's quotient never has the sign opposite to that of a·b (R129, R133). -/
theorem FxTy.scaled_tdiv_mul_nonneg (t : FxTy) (a b : Int) :
    0 ≤ (a * t.scale).tdiv b * (a * b) := by
  have h := tdiv_mul_mul_nonneg (a * t.scale) b
  rw [mul_right_comm, ← mul_assoc] at h
  exact nonneg_of_mul_nonneg_left h t.scale_pos

namespace Machine

/-! ### Boolean results -/

theorem boolWord_eq_zero_or_one (b : Bool) : boolWord b = 0 ∨ boolWord b = 1 := by
  cases b
  · exact .inl rfl
  · exact .inr rfl

theorem boolWord_eq_one_iff (b : Bool) : boolWord b = 1 ↔ b = true := by cases b <;> decide

/-- A comparison holds exactly for valid operands in the relation (R137, R144). -/
theorem compareUnder_iff (t : FxTy) (rel : Int → Int → Bool) (a b : Int) :
    compareUnder t rel a b = true ↔ a ≠ t.minT ∧ b ≠ t.minT ∧ rel a b = true := by
  rw [compareUnder, Bool.and_eq_true, Bool.and_eq_true, t.valid_iff, t.valid_iff, and_assoc]

/-- A command that writes a comparison's boolean changes RD alone, and RD is 1 exactly for valid
operands in the relation (R137). -/
theorem WritesFunctionOfValues.compare_spec {t : FxTy} {rd : Reg} {mk : Reg → Reg → Instr}
    {rel : Int → Int → Bool}
    (h : WritesFunctionOfValues t rd mk fun a b => boolWord (compareUnder t rel a b))
    (s : State) (ra rb : Reg) :
    ∃ u, exec (mk ra rb) s = .next u ∧ changesOnlyReg rd s u ∧ (u.reg rd = 0 ∨ u.reg rd = 1) ∧
      (u.reg rd = 1 ↔ t.val (s.reg ra) ≠ t.minT ∧ t.val (s.reg rb) ≠ t.minT ∧
        rel (t.val (s.reg ra)) (t.val (s.reg rb)) = true) := by
  refine ⟨_, h s ra rb, changesOnlyReg_setReg s rd _, ?_⟩
  rw [State.reg_setReg_same]
  exact ⟨boolWord_eq_zero_or_one _, (boolWord_eq_one_iff _).trans (compareUnder_iff t rel _ _)⟩

/-- Settles O16: each of the six writes the boolean of a comparison under the type. -/
theorem comparisonsOfValidOnly : Obligations.ComparisonsOfValidOnly := by
  intro s t rd ra rb p hp
  simp only [List.mem_cons, List.not_mem_nil, or_false] at hp
  rcases hp with rfl | rfl | rfl | rfl | rfl | rfl
  · exact (cmpLt_writes t rd).compare_spec s ra rb
  · exact (cmpLe_writes t rd).compare_spec s ra rb
  · exact (cmpGt_writes t rd).compare_spec s ra rb
  · exact (cmpGe_writes t rd).compare_spec s ra rb
  · exact (cmpEq_writes t rd).compare_spec s ra rb
  · exact (cmpNe_writes t rd).compare_spec s ra rb

/-! ### Division and invalid operands -/

/-- Settles O14: a zero divisor writes INV_T, and any other divisor an arithmetic result whose exact
part is the scaled dividend divided toward zero. -/
theorem divTruncatesTowardZero : Obligations.DivTruncatesTowardZero := by
  intro s t rd ra rb
  refine ⟨_, div_writes t rd s ra rb, changesOnlyReg_setReg s rd _, ?_⟩
  rw [State.reg_setReg_same]
  beta_reduce
  by_cases hzero : t.val (s.reg rb) = 0
  · rw [if_pos hzero]
    exact ⟨t.canonical_inv, fun _ => rfl, fun _ _ hne => absurd hzero hne⟩
  · rw [if_neg hzero]
    obtain ⟨hcanon, hval⟩ := t.arith_spec (t.val (s.reg ra)) (t.val (s.reg rb))
      ((t.val (s.reg ra) * t.scale).tdiv (t.val (s.reg rb)))
    exact ⟨hcanon, fun h => absurd h hzero, fun ha hb _ =>
      ⟨_, hval ha hb, t.natAbs_scaled_tdiv _ _, t.scaled_tdiv_mul_nonneg _ _⟩⟩

/-- A command that writes INV_T for an invalid operand answers the state with INV_T in RD (R127). -/
theorem WritesFunctionOfValues.exec_of_invalid {t : FxTy} {rd : Reg} {mk : Reg → Reg → Instr}
    {f : Int → Int → Word} (h : WritesFunctionOfValues t rd mk f) {s : State} {ra rb : Reg}
    (hf : f (t.val (s.reg ra)) (t.val (s.reg rb)) = t.inv) :
    exec (mk ra rb) s = .next (s.setReg rd t.inv) := by
  rw [h s ra rb, hf]

/-- Settles O15: an arithmetic result is INV_T for an invalid operand, and DIV's zero-divisor case
gives INV_T too. -/
theorem invalidOperandsPropagate : Obligations.InvalidOperandsPropagate := by
  intro s t rd ra rb hinv i hi
  have harith := fun z => t.arith_invalid _ _ z hinv
  simp only [List.mem_cons, List.not_mem_nil, or_false] at hi
  rcases hi with rfl | rfl | rfl | rfl
  · exact (add_writes t rd).exec_of_invalid (harith _)
  · exact (sub_writes t rd).exec_of_invalid (harith _)
  · exact (mul_writes t rd).exec_of_invalid (harith _)
  · refine (div_writes t rd).exec_of_invalid ?_
    rw [harith, ite_self]

/-! ### Commands with one source or none -/

section
variable (s : State) (t : FxTy) (rd ra : Reg)

theorem exec_inval : exec (.inval t rd) s = .next (s.setReg rd t.inv) := rfl

theorem exec_fromRaw :
    exec (.fromRaw t rd ra) s = .next (s.setReg rd (t.canon (t.val (s.reg ra)))) := rfl

theorem exec_isValid :
    exec (.isValid t rd ra) s = .next (s.setReg rd (boolWord (t.valid (t.val (s.reg ra))))) := rfl

end

/-- Settles O7: opcode 0 is NOP's branch of the decoder, which reads no other field. -/
theorem nopChangesNothing : Obligations.NopChangesNothing := by
  refine ⟨fun w hop => ?_, fun _ => rfl⟩
  have hop : (CmdFields.ofWord w).op = 0 := hop
  rw [decode, decodeFields, hop]
  rfl

/-- Settles O8: INVAL writes INV_T, whose container is computed for each integer type. -/
theorem invalWritesSentinel : Obligations.InvalWritesSentinel := by
  intro s t rd
  refine ⟨_, exec_inval s t rd, changesOnlyReg_setReg s rd _, ?_⟩
  rw [State.reg_setReg_same]
  obtain ⟨int, dec⟩ := t
  cases int <;> cases dec <;> decide

/-- Settles O9: the container of a word's value is canonical and keeps the word's low w bits, which are
all 32 for u32. -/
theorem fromRawTakesLowBits : Obligations.FromRawTakesLowBits := by
  refine ⟨fun s t rd ra => ⟨_, exec_fromRaw s t rd ra, changesOnlyReg_setReg s rd _, ?raw⟩,
    fun s rd ra => ⟨_, exec_fromRaw s _ rd ra, changesOnlyReg_setReg s rd _, ?mov⟩⟩ <;>
    rw [State.reg_setReg_same]
  case raw => exact ⟨t.canonical_canon _, t.setWidth_canon_val _⟩
  case mov =>
    have hbits := FxTy.setWidth_canon_val ⟨.u32, .zero⟩ (s.reg ra)
    rwa [FxTy.width, IntTy.width, BitVec.setWidth_eq, BitVec.setWidth_eq] at hbits

/-- Settles O11: ISVALID's boolean is false exactly for the sentinel pattern. -/
theorem isValidTestsSentinel : Obligations.IsValidTestsSentinel := by
  intro s t rd ra
  refine ⟨_, exec_isValid s t rd ra, changesOnlyReg_setReg s rd _, ?_⟩
  rw [State.reg_setReg_same]
  by_cases hmin : t.val (s.reg ra) = t.minT
  · rw [if_pos ((t.val_eq_minT_iff _).1 hmin), hmin]
    simp [FxTy.valid, boolWord]
  · rw [if_neg (mt (t.val_eq_minT_iff _).2 hmin), (t.valid_iff _).2 hmin]
    rfl

end Machine

end Sys2Proof
end

section
/-! PROOF. FROMREAL (41_fixed_point.md R124, R125): the model's fraction is the absolute value of the
binary32 pattern, and its rounding over natural numbers is the rounding over the rationals. -/

namespace Sys2Proof.Machine

/-- The value of a pattern is the fraction of `realMagnitude` with the sign of bit 31 (R125): a
subnormal is over 2^149, and another is an integer from exponent 150 on and over 2^(150 - e) below. -/
theorem binary32Value_eq (f : Word) :
    binary32Value f = (if f.msb then -1 else 1) *
      (((realMagnitude f).1 : ℚ) / ((realMagnitude f).2 : ℚ)) := by
  unfold binary32Value realMagnitude
  generalize (f.extractLsb' 23 8).toNat = e
  dsimp only
  by_cases hsub : e = 0
  · rw [if_pos hsub, if_pos hsub]
    push_cast
    rw [zpow_neg, ← div_eq_mul_inv]
    norm_cast
  rw [if_neg hsub, if_neg hsub]
  by_cases hint : 150 ≤ e
  · rw [if_pos hint, show (e : ℤ) - 150 = ((e - 150 : ℕ) : ℤ) by omega, zpow_natCast]
    push_cast
    rw [div_one]
  · rw [if_neg hint, show (e : ℤ) - 150 = -((150 - e : ℕ) : ℤ) by omega, zpow_neg, zpow_natCast,
      ← div_eq_mul_inv]
    push_cast
    rfl

theorem realMagnitude_den_pos (f : Word) : 0 < (realMagnitude f).2 := by
  unfold realMagnitude
  dsimp only
  split
  · positivity
  · split <;> positivity

/-- Rounding half up over natural numbers is the floor of the fraction plus one half. -/
theorem floor_div_add_half (n d : ℕ) (hd : 0 < d) :
    ⌊(n : ℚ) / d + 1 / 2⌋ = (((2 * n + d) / (2 * d) : ℕ) : ℤ) := by
  have hhalf : (n : ℚ) / d + 1 / 2 = ((2 * n + d : ℕ) : ℚ) / ((2 * d : ℕ) : ℚ) := by
    have : (d : ℚ) ≠ 0 := by positivity
    push_cast
    field_simp
  rw [hhalf, Rat.floor_natCast_div_natCast, Int.natCast_ediv]

/-- Rounding away from zero keeps the sign apart from the magnitude. -/
theorem nearestAway_sign_mul (neg : Bool) {q : ℚ} (hq : 0 ≤ q) :
    nearestAway ((if neg then -1 else 1) * q) = if neg then -⌊q + 1 / 2⌋ else ⌊q + 1 / 2⌋ := by
  cases neg
  · simp [nearestAway, abs_of_nonneg hq, not_lt.2 hq]
  · obtain rfl | hpos := hq.eq_or_lt
    · norm_num [nearestAway]
    · simp [nearestAway, abs_of_nonneg hq, hpos]

/-- The model's rounding over the exact fraction is R124's over the rationals (log 10). -/
theorem realRounded_eq_nearestAway (scale : ℕ) (f : Word) :
    realRounded scale f = nearestAway (binary32Value f * (scale : ℚ)) := by
  have hq : ((realMagnitude f).1 : ℚ) / (realMagnitude f).2 * scale =
      (((realMagnitude f).1 * scale : ℕ) : ℚ) / (realMagnitude f).2 := by
    push_cast
    ring
  rw [binary32Value_eq, mul_assoc, hq, nearestAway_sign_mul _ (by positivity),
    floor_div_add_half _ _ (realMagnitude_den_pos f)]
  rfl

theorem exec_fromReal (s : State) (t : FxTy) (rd ra : Reg) :
    exec (.fromReal t rd ra) s = .next (s.setReg rd (realContainer t (s.reg ra))) := rfl

theorem realIsSpecial_iff (f : Word) : realIsSpecial f = true ↔ f.extractLsb' 23 8 = 0xFF := by
  simp [realIsSpecial]

/-- Settles O10: NaN and infinities give INV_T, and every other pattern its rounded value through
`fit`. -/
theorem fromRealRoundsToNearest : Obligations.FromRealRoundsToNearest := by
  intro s t rd ra
  refine ⟨_, exec_fromReal s t rd ra, changesOnlyReg_setReg s rd _, ?_⟩
  rw [State.reg_setReg_same, ← realRounded_eq_nearestAway, realContainer]
  split
  case isTrue hspecial =>
    exact ⟨t.canonical_canon _, fun _ => rfl, fun h => absurd ((realIsSpecial_iff _).1 hspecial) h⟩
  case isFalse hnormal =>
    exact ⟨t.canonical_canon _, fun h => absurd ((realIsSpecial_iff _).2 h) hnormal,
      fun _ => t.val_canon_fit _⟩

end Sys2Proof.Machine
end

section
/-! PROOF. FMT's text (41_fixed_point.md R145 to R147): what FMT leaves in FMTBUF, the digits of a value
as Mathlib's `Nat.digits`, the two texts, and the forms of FMT, FSET and FGET that raise IllegalCommand
(R97, R146, R166, R169). -/

namespace Sys2Proof.Machine

/-! ### What FMT answers -/

section
variable {s : State} {t : FxTy}

theorem exec_fmt_of_le {width : Fin 32} (h : width.val ≤ 16) (ra : Reg) (left plus : Bool) :
    exec (.fmt t ra width left plus) s =
      .next (s.putText (fmtText t (t.val (s.reg ra)) width.val left plus)) :=
  if_neg (Nat.not_lt.2 h)

theorem exec_fmt_of_gt {width : Fin 32} (h : 16 < width.val) (ra : Reg) (left plus : Bool) :
    exec (.fmt t ra width left plus) s = .next s.raiseIllegal :=
  if_pos h

theorem State.fieldIllegal_iff {field : Field} :
    s.fieldIllegal t field = true ↔ (field = .cond ∧ s.condEn = false) ∨ t ≠ field.ty := by
  simp [State.fieldIllegal]

theorem exec_fset_of_illegal {field : Field} (h : s.fieldIllegal t field = true) (ra : Reg) :
    exec (.fset t field ra) s = .next s.raiseIllegal :=
  if_pos h

theorem exec_fget_of_illegal {field : Field} (h : s.fieldIllegal t field = true) (rd : Reg) :
    exec (.fget t rd field) s = .next s.raiseIllegal :=
  if_pos h

end

/-- FMTLEN after a text that fits (R146). -/
theorem State.toNat_fmtLen_putText (s : State) {text : List Byte} (h : text.length ≤ 16) :
    (s.putText text).fmtLen.toNat = text.length := by
  rw [State.putText_fmtLen, BitVec.toNat_ofNat, Nat.mod_eq_of_lt (by omega)]

/-- FMT's store stays inside FMTBUF. -/
theorem State.sameOutside_putText (s : State) (text : List Byte) :
    sameOutside fmtBase 16 s (s.putText text) := fun a ha =>
  Memory.read_writeBytes_outside _ s.mem _ a (by rwa [textBytes_length])

/-- Settles O18: a legal width's text fits FMTBUF, and FMT's effect is to put it there. -/
theorem fmtWritesText : Obligations.FmtWritesText := by
  intro s t ra width left plus hw
  have hlen := fmtText_length_le t (t.val (s.reg ra)) width.val left plus hw
  exact ⟨_, exec_fmt_of_le hw ra left plus, hlen, s.toNat_fmtLen_putText hlen,
    fun k hk => s.fmtByte_putText _ k hk, fun _ => rfl, s.sameOutside_putText _, rfl⟩

/-- Settles O21: each of these forms fails its command's legality check. -/
theorem illegalFormsRaise : Obligations.IllegalFormsRaise := by
  refine ⟨fun s t ra width left plus hw => exec_fmt_of_gt hw ra left plus, fun s t f r h => ?_⟩
  have hill : s.fieldIllegal t f = true := State.fieldIllegal_iff.2 h
  exact ⟨exec_fset_of_illegal hill r, exec_fget_of_illegal hill r⟩

/-! ### The two texts -/

theorem fmtText_of_invalid {t : FxTy} {x : Int} (h : x = t.minT) (width : Nat) (left plus : Bool) :
    fmtText t x width left plus = invalidText width := by
  simp [fmtText, FxTy.valid, h]

theorem fmtText_of_valid {t : FxTy} {x : Int} (h : x ≠ t.minT) (width : Nat) (left plus : Bool) :
    fmtText t x width left plus = validText t.dec x width left plus :=
  if_pos ((t.valid_iff x).2 h)

@[simp] theorem invalidText_length (width : Nat) : (invalidText width).length = max width 1 :=
  List.length_replicate

theorem invalidText_getD (width k : Nat) :
    (invalidText width).getD k 0 = if k < max width 1 then 0x3F else 0 := by
  rw [invalidText, List.getD_eq_getElem?_getD, List.getElem?_replicate]
  split <;> rfl

/-- Settles O20: FMT puts the placeholder text, which is at most 16 characters for a legal width. -/
theorem invalidTextIsPlaceholder : Obligations.InvalidTextIsPlaceholder := by
  intro s t ra width left plus hw hinv
  have hexec := exec_fmt_of_le (s := s) (t := t) hw ra left plus
  rw [fmtText_of_invalid hinv] at hexec
  refine ⟨_, hexec, ?_, fun k hk => ?_⟩
  · rw [s.toNat_fmtLen_putText (by rw [invalidText_length]; omega), invalidText_length]
  · rw [s.fmtByte_putText _ k hk, invalidText_getD]

/-- A valid value's text is its sign and digits, with spaces up to the width on the side LEFT selects
(R145). -/
theorem validText_spec (dec : Decimals) (x : Int) (width : Nat) (left plus : Bool) :
    ∃ pad : List Byte, (∀ b ∈ pad, b = 0x20) ∧
      validText dec x width left plus =
        (if left then fmtSign plus x ++ fmtDigits dec x.natAbs ++ pad
         else pad ++ (fmtSign plus x ++ fmtDigits dec x.natAbs)) ∧
      (validText dec x width left plus).length =
        max width ((fmtSign plus x).length + (fmtDigits dec x.natAbs).length) := by
  refine ⟨_, fun b => List.eq_of_mem_replicate, rfl, ?_⟩
  unfold validText
  cases left <;> simp <;> omega

/-! ### Decimal digits -/

theorem decimalDigits_zero (fuel : Nat) : decimalDigits (fuel + 1) 0 = [0] := rfl

/-- With enough fuel the digits are the library's, most significant first. -/
theorem decimalDigits_eq_digits {fuel n : Nat} (hpos : 0 < n) (hn : n < 10 ^ fuel) :
    decimalDigits fuel n = (Nat.digits 10 n).reverse := by
  induction fuel generalizing n with
  | zero => omega
  | succ fuel ih =>
    rw [decimalDigits, Nat.digits_def' (by decide) hpos, List.reverse_cons]
    split
    case isTrue hlt => rw [Nat.div_eq_of_lt hlt, Nat.mod_eq_of_lt hlt]; rfl
    case isFalse hge => rw [ih (by omega) (by rw [pow_succ] at hn; omega)]

/-- The digits denote the number (R145). -/
theorem foldl_decimalDigits {fuel n : Nat} (hfuel : 0 < fuel) (hn : n < 10 ^ fuel) :
    (decimalDigits fuel n).foldl (fun v d => 10 * v + d) 0 = n := by
  obtain rfl | hpos := n.eq_zero_or_pos
  · obtain ⟨k, rfl⟩ := Nat.exists_eq_succ_of_ne_zero hfuel.ne'
    rfl
  · rw [decimalDigits_eq_digits hpos hn, List.foldl_reverse]
    have hdigits := Nat.ofDigits_digits 10 n
    rw [Nat.ofDigits_eq_foldr] at hdigits
    simpa [add_comm] using hdigits

theorem decimalDigits_lt {fuel n d : Nat} (hn : n < 10 ^ fuel) (hd : d ∈ decimalDigits fuel n) :
    d < 10 := by
  obtain rfl | hpos := n.eq_zero_or_pos
  · cases fuel with
    | zero => cases hd
    | succ fuel =>
      rw [decimalDigits_zero, List.mem_singleton] at hd
      omega
  · rw [decimalDigits_eq_digits hpos hn, List.mem_reverse] at hd
    exact Nat.digits_lt_base (by decide) hd

/-- A positive number has no leading zero (R145). -/
theorem head?_decimalDigits_ne_zero {fuel n : Nat} (hpos : 0 < n) (hn : n < 10 ^ fuel) :
    (decimalDigits fuel n).head? ≠ some 0 := by
  have hne : Nat.digits 10 n ≠ [] := Nat.digits_ne_nil_iff_ne_zero.2 hpos.ne'
  rw [decimalDigits_eq_digits hpos hn, List.head?_reverse, List.getLast?_eq_some_getLast hne]
  simpa using Nat.getLast_digit_ne_zero 10 hpos.ne'

/-- More fuel than a number needs gives the same digits. -/
theorem decimalDigits_succ_fuel {fuel n : Nat} (hfuel : 0 < fuel) (hn : n < 10 ^ fuel) :
    decimalDigits (fuel + 1) n = decimalDigits fuel n := by
  obtain rfl | hpos := n.eq_zero_or_pos
  · obtain ⟨k, rfl⟩ := Nat.exists_eq_succ_of_ne_zero hfuel.ne'
    rfl
  · have hn' : n < 10 ^ (fuel + 1) := by rw [pow_succ]; omega
    rw [decimalDigits_eq_digits hpos hn, decimalDigits_eq_digits hpos hn']

theorem decimalDigits_ne_nil (fuel n : Nat) : decimalDigits (fuel + 1) n ≠ [] := by
  unfold decimalDigits
  split <;> simp

/-- With one decimal the point stands before the last digit, and a number below 10 has the integer
digit 0 (R145). -/
theorem fmtDigits_one {n : Nat} (hn : n < 10 ^ 10) :
    fmtDigits .one n =
      (decimalDigits 10 (n / 10)).map asciiDigit ++ [0x2E, asciiDigit (n % 10)] := by
  by_cases hlt : n < 10
  · have hdigits : decimalDigits 10 n = [n] := if_pos hlt
    rw [fmtDigits, hdigits, Nat.div_eq_of_lt hlt, Nat.mod_eq_of_lt hlt, decimalDigits_zero]
    rfl
  · have hdigits : decimalDigits 10 n = decimalDigits 10 (n / 10) ++ [n % 10] := by
      rw [decimalDigits_succ_fuel (n := n / 10) (by decide) (by omega)]
      exact if_neg hlt
    have hne : decimalDigits 10 (n / 10) ≠ [] := decimalDigits_ne_nil 9 (n / 10)
    simp [fmtDigits, hdigits, hne]

theorem asciiDigit_toNat {d : Nat} (h : d < 10) : (asciiDigit d).toNat = 0x30 + d := by
  rw [asciiDigit, BitVec.toNat_ofNat, Nat.mod_eq_of_lt (by omega)]

/-- The sign characters of R145. -/
theorem fmtSign_cases (plus : Bool) (x : Int) :
    (x < 0 → fmtSign plus x = [0x2D]) ∧
      (0 ≤ x → plus = true → fmtSign plus x = [0x2B]) ∧
      (0 ≤ x → plus = false → fmtSign plus x = []) := by
  unfold fmtSign
  refine ⟨fun h => if_pos h, fun h hplus => ?_, fun h hplus => ?_⟩ <;>
    rw [if_neg (not_lt.2 h), hplus] <;> rfl

/-- Settles O19: the padded text, the sign, the characters of the digits, and the digits of n, which
are those of `Nat.digits`. -/
theorem validTextDenotesValue : Obligations.ValidTextDenotesValue := by
  refine ⟨fun t x width left plus hx => ?_, fmtSign_cases, fun d hd => asciiDigit_toNat hd,
    fun n hn => ⟨rfl, fmtDigits_one hn, foldl_decimalDigits (by decide) hn,
      fun d hd => decimalDigits_lt hn hd, fun hpos => head?_decimalDigits_ne_zero hpos hn, rfl⟩⟩
  rw [fmtText_of_valid hx]
  exact validText_spec t.dec x width left plus

end Sys2Proof.Machine
end

section
/-! PROOF. The frame's checksum and the three commands over the whole frame (42_frame.md R161 to R165):
a CRC step loses nothing, so the CRC tells apart frames that differ in one byte; what FCLR, FSEAL and
FVERIFY answer; and from both that FSEAL is verified and that one flipped bit is detected. -/

namespace Sys2Proof.Machine

/-! ### The CRC loses nothing -/

/-- One CRC bit as a linear step (R14). -/
theorem crcBit_eq_xor (c : Byte) :
    crcBit c = (c >>> 1) ^^^ (if c.getLsbD 0 then 0x8C else 0) := by
  unfold crcBit
  split <;> simp

/-- The polynomial has its top bit set, so that bit of the result records the bit shifted out. -/
theorem crcBit_getLsbD_seven (c : Byte) : (crcBit c).getLsbD 7 = c.getLsbD 0 := by
  rw [crcBit_eq_xor]
  cases c.getLsbD 0 <;> simp

theorem crcBit_injective : Function.Injective crcBit := by
  intro a b h
  have hout : a.getLsbD 0 = b.getLsbD 0 := by
    rw [← crcBit_getLsbD_seven, h, crcBit_getLsbD_seven]
  have hshift : a >>> 1 = b >>> 1 := by
    rwa [crcBit_eq_xor, crcBit_eq_xor, hout, BitVec.xor_left_inj] at h
  apply BitVec.eq_of_getLsbD_eq
  intro i _
  cases i with
  | zero => exact hout
  | succ i => simpa [Nat.add_comm] using congrArg (BitVec.getLsbD · i) hshift

theorem crcBits_injective (n : Nat) : Function.Injective (crcBits n) := by
  induction n with
  | zero => exact Function.injective_id
  | succ n ih => exact ih.comp crcBit_injective

/-- Different checksums stay different over the same byte. -/
theorem crcByte_left_inj {c d b : Byte} : crcByte c b = crcByte d b ↔ c = d :=
  (crcBits_injective 8).eq_iff.trans (BitVec.xor_left_inj b)

/-- Different bytes take one checksum to different ones. -/
theorem crcByte_right_inj {c b d : Byte} : crcByte c b = crcByte c d ↔ b = d :=
  (crcBits_injective 8).eq_iff.trans (BitVec.xor_right_inj c)

theorem crc8_concat (bytes : List Byte) (b : Byte) :
    crc8 (bytes ++ [b]) = crcByte (crc8 bytes) b :=
  List.foldl_concat ..

/-- Two sequences that agree everywhere but at one place have the same CRC only if they agree there
too. -/
theorem eq_of_crc8_eq {f g : Nat → Byte} {n k : Nat} (hk : k < n)
    (hother : ∀ i, i < n → i ≠ k → f i = g i)
    (hcrc : crc8 ((List.range n).map f) = crc8 ((List.range n).map g)) : f k = g k := by
  induction n with
  | zero => omega
  | succ n ih =>
    simp only [List.range_succ, List.map_append, List.map_singleton, crc8_concat] at hcrc
    by_cases hlast : k = n
    · have hinit : (List.range n).map f = (List.range n).map g :=
        List.map_congr_left fun i hi => by
          have hlt := List.mem_range.1 hi
          exact hother i (by omega) (by omega)
      rw [hinit, crcByte_right_inj] at hcrc
      rwa [hlast]
    · rw [hother n (by omega) (Ne.symm hlast), crcByte_left_inj] at hcrc
      exact ih (by omega) (fun i hi => hother i (by omega)) hcrc

/-- Two frames of one layout that differ in exactly one covered byte have different checksums (R162). -/
theorem State.frameCrc_ne_of_byte_ne {s t : State} {k : Nat} (hc : t.condEn = s.condEn)
    (hk : k < s.frameLen - 1)
    (hother : ∀ i, i < s.frameLen - 1 → i ≠ k → t.frameByte i = s.frameByte i)
    (hne : t.frameByte k ≠ s.frameByte k) : t.frameCrc ≠ s.frameCrc := by
  have hlen : t.frameLen = s.frameLen := congrArg layoutLen hc
  unfold State.frameCrc
  rw [hlen]
  exact mt (eq_of_crc8_eq hk hother) hne

theorem xor_twoPow_ne (b : Byte) {j : Nat} (hj : j < 8) : b ^^^ BitVec.twoPow 8 j ≠ b := by
  intro h
  have hbit := congrArg (BitVec.getLsbD · j) h
  simp [hj] at hbit

/-! ### What FCLR, FSEAL and FVERIFY answer -/

theorem exec_fclr (s : State) : exec .fclr s = .next s.clearFrame := rfl

theorem exec_fseal (s : State) :
    exec .fseal s = .next (s.putFrame (s.frameLen - 1) [s.frameCrc] true) := rfl

section
variable {s : State}

theorem exec_fverify_of_eq (h : s.frameCrc = s.frameByte (s.frameLen - 1)) (rd : Reg) :
    exec (.fverify rd) s = .next ({ s with frameSealed := true }.setReg rd 1) :=
  if_pos h

theorem exec_fverify_of_ne (h : s.frameCrc ≠ s.frameByte (s.frameLen - 1)) (rd : Reg) :
    exec (.fverify rd) s = .next (s.clearFrame.setReg rd 0) :=
  if_neg h

end

/-! ### FCLR -/

/-- Storing the same bytes again over themselves changes nothing in a canonical memory. -/
theorem Memory.writeBytes_writeBytes_same {m : Memory} (hm : m.wf) {a : Nat} {bytes : List Byte}
    (lo : fmtBase ≤ a) (hi : a + bytes.length ≤ frameBase + 16) :
    (m.writeBytes a bytes).writeBytes a bytes = m.writeBytes a bytes := by
  have hwf := Memory.wf_writeBytes bytes m a hm lo hi
  refine Memory.ext_of_wf (Memory.wf_writeBytes bytes _ a hwf lo hi) hwf fun b => ?_
  simp only [Memory.read_writeBytes]
  split <;> rfl

theorem State.clearFrame_clearFrame {s : State} (hs : s.mem.wf) :
    s.clearFrame.clearFrame = s.clearFrame := by
  have hmem : s.clearFrame.clearFrame.mem = s.clearFrame.mem :=
    Memory.writeBytes_writeBytes_same hs (by decide) (by rw [clearedFrame_length])
  change { s.clearFrame with mem := s.clearFrame.clearFrame.mem } = s.clearFrame
  rw [hmem]

/-- Settles O23: FCLR stores the same bytes twice, in a canonical memory. -/
theorem fclrIdempotent : Obligations.FclrIdempotent := fun s hs =>
  ⟨_, exec_fclr s, (exec_fclr _).trans (congrArg _ (State.clearFrame_clearFrame hs))⟩

/-- The checksum FCLR leaves is the complement of the current one (R161). -/
theorem State.frameCrc_clearFrame_ne (s : State) :
    s.clearFrame.frameCrc ≠ s.clearFrame.frameByte (s.clearFrame.frameLen - 1) := by
  have hlen : s.clearFrame.frameLen = layoutLen s.condEn := rfl
  have hle := layoutLen_le s.condEn
  have hcovered : (List.range (layoutLen s.condEn - 1)).map s.clearFrame.frameByte =
      (List.range (layoutLen s.condEn - 1)).map fun k => (clearedFrame s.condEn).getD k 0 :=
    List.map_congr_left fun k hk => by
      have hlt := List.mem_range.1 hk
      exact s.frameByte_clearFrame k (by omega)
  rw [State.frameCrc, hlen, hcovered, s.frameByte_clearFrame _ (by omega), clearedFrame_bytes]
  cases s.condEn <;> decide +kernel

/-- Settles O30: FCLR's checksum is not current, so FVERIFY clears the frame again. -/
theorem clearedFrameFailsVerify : Obligations.ClearedFrameFailsVerify := by
  intro s rd
  refine ⟨_, _, exec_fclr s, exec_fverify_of_ne s.frameCrc_clearFrame_ne rd,
    State.reg_setReg_same .., rfl, fun k hk => ?_⟩
  rw [State.frameByte_setReg, State.frameByte_clearFrame _ k hk, State.frameByte_clearFrame _ k hk]
  rfl

/-! ### FSEAL and FVERIFY -/

/-- FRAME after FSEAL: the checksum byte is new, and every other byte as before (R163). -/
theorem State.frameByte_seal (s : State) (k : Nat) :
    (s.putFrame (s.frameLen - 1) [s.frameCrc] true).frameByte k =
      if k = s.frameLen - 1 then s.frameCrc else s.frameByte k := by
  rw [State.frameByte_putFrame, List.length_singleton]
  by_cases hk : k = s.frameLen - 1
  · rw [if_pos (by omega), if_pos hk, hk, Nat.sub_self]
    rfl
  · rw [if_neg (by omega), if_neg hk]

/-- FSEAL leaves a current checksum, since it does not cover itself (R162, R163). -/
theorem State.sealInv_seal (s : State) :
    (s.putFrame (s.frameLen - 1) [s.frameCrc] true).sealInv := by
  intro _
  have hcovered : (s.putFrame (s.frameLen - 1) [s.frameCrc] true).frameCrc = s.frameCrc :=
    State.frameCrc_congr rfl fun k hk => by rw [State.frameByte_seal, if_neg hk.ne]
  rw [State.frameLen_putFrame, State.frameByte_seal, if_pos rfl, hcovered]

/-- Settles O24: FSEAL's one store is the checksum byte. -/
theorem fsealStoresCrc : Obligations.FsealStoresCrc := by
  intro s
  refine ⟨_, exec_fseal s, rfl, ?_, fun k hk => ?_, changesOnlyFrame_putFrame ..⟩
  · rw [State.frameByte_seal, if_pos rfl]
    rfl
  · rw [State.frameByte_seal, if_neg hk.ne]

/-- Settles O25: one case for each outcome of the comparison FVERIFY makes. -/
theorem fverifyKeepsOrClears : Obligations.FverifyKeepsOrClears := by
  intro s rd
  by_cases hcrc : s.frameCrc = s.frameByte (s.frameLen - 1)
  · exact ⟨_, exec_fverify_of_eq hcrc rd, fun r hr => State.reg_setReg_other _ _ _ _ hr,
      fun _ => ⟨State.reg_setReg_same .., rfl, fun _ => rfl, rfl⟩, fun hne => absurd hcrc hne⟩
  · obtain ⟨-, houtside, -⟩ := s.changesOnlyFrame_clearFrame
    exact ⟨_, exec_fverify_of_ne hcrc rd, fun r hr => State.reg_setReg_other _ _ _ _ hr,
      fun heq => absurd heq hcrc, fun _ => ⟨State.reg_setReg_same .., rfl, houtside, rfl,
        _, exec_fclr s, fun _ _ => rfl⟩⟩

/-- Settles O26: a frame as FSEAL left it has the checksum FSEAL stored. A flipped bit of a covered
byte changes the computed checksum and not the stored one; a flipped bit of the checksum byte changes
the stored one and not the computed one. -/
theorem sealDetectsEveryBitFlip : Obligations.SealDetectsEveryBitFlip := by
  intro s rd
  refine ⟨_, exec_fseal s, ?_⟩
  have hcurrent := s.sealInv_seal rfl
  have hlen : (s.putFrame (s.frameLen - 1) [s.frameCrc] true).frameLen = s.frameLen := rfl
  generalize s.putFrame (s.frameLen - 1) [s.frameCrc] true = u at *
  have hpos : 0 < u.frameLen := layoutLen_pos _
  rw [← hlen]
  refine ⟨fun x hc hsame => ?kept, fun x k j hk hj hc hother hflip => ?flipped⟩ <;>
    have hxlen : x.frameLen = u.frameLen := congrArg layoutLen hc
  case kept =>
    have hmatch : x.frameCrc = x.frameByte (x.frameLen - 1) := by
      rw [State.frameCrc_congr hc fun k hk => hsame k (by omega), ← hcurrent, hxlen,
        hsame _ (by omega)]
    exact ⟨_, exec_fverify_of_eq hmatch rd, State.reg_setReg_same .., rfl⟩
  case flipped =>
    have hne : x.frameByte k ≠ u.frameByte k := hflip ▸ xor_twoPow_ne _ hj
    have hmismatch : x.frameCrc ≠ x.frameByte (x.frameLen - 1) := by
      rw [hxlen]
      by_cases hlast : k = u.frameLen - 1
      · rw [State.frameCrc_congr hc fun i hi => hother i (by omega) (by omega), ← hcurrent, ← hlast]
        exact hne.symm
      · rw [hother _ (by omega) (Ne.symm hlast), hcurrent]
        exact State.frameCrc_ne_of_byte_ne hc (by omega) (fun i hi => hother i (by omega)) hne
    exact ⟨_, exec_fverify_of_ne hmismatch rd, State.reg_setReg_same .., rfl⟩

end Sys2Proof.Machine
end

section
/-! PROOF. FSET and FGET (42_frame.md R166 to R169): the bytes FSET stores, the bytes of the word FGET
makes, and the round trip through the frame, which follows from the two: a container is fixed by its
type and its low bytes (R12, R24). -/

namespace Sys2Proof

/-! ### Words and their low bytes -/

/-- A word's low 8n bits are its low n bytes. -/
theorem setWidth_eq_of_bytes {v w : Word} {n : Nat}
    (h : ∀ i, i < n → v.extractLsb' (8 * i) 8 = w.extractLsb' (8 * i) 8) :
    v.setWidth (8 * n) = w.setWidth (8 * n) := by
  apply BitVec.eq_of_getLsbD_eq
  intro k hk
  have hbit := congrArg (BitVec.getLsbD · (k % 8)) (h (k / 8) (by omega))
  have hk8 : 8 * (k / 8) + k % 8 = k := Nat.div_add_mod k 8
  simpa [hk, hk8, Nat.mod_lt] using hbit

/-- A byte of a word's low w bits. -/
theorem extractLsb'_setWidth_of_le (v : Word) {w i : Nat} (h : 8 * i + 8 ≤ w) :
    (v.setWidth w).extractLsb' (8 * i) 8 = v.extractLsb' (8 * i) 8 := by
  apply BitVec.eq_of_getLsbD_eq
  intro k hk
  simp [show 8 * i + k < w by omega]

/-- Canonical containers with the same low w bits are the same word (R24). -/
theorem FxTy.canonical.eq_of_setWidth_eq {t : FxTy} {v w : Word} (hv : t.canonical v)
    (hw : t.canonical w) (h : v.setWidth t.width = w.setWidth t.width) : v = w := by
  unfold FxTy.canonical at hv hw
  rw [hv, hw, h]

/-- A field takes as many bytes as its type has (R64, R167). -/
theorem Field.width_ty (f : Field) : f.ty.width = 8 * f.size := by cases f <;> rfl

/-- A canonical container under a field's type is fixed by the field's bytes. -/
theorem Field.eq_canon_of_bytes {f : Field} {v w : Word} (hv : f.ty.canonical v)
    (h : ∀ i, i < f.size → v.extractLsb' (8 * i) 8 = w.extractLsb' (8 * i) 8) :
    v = f.ty.canon (f.ty.val w) := by
  refine hv.eq_of_setWidth_eq (f.ty.canonical_canon _) ?_
  rw [FxTy.setWidth_canon_val, f.width_ty]
  exact setWidth_eq_of_bytes h

namespace Machine

/-! ### What FSET stores -/

theorem littleEndian_getD (n : Nat) (v : Word) {i : Nat} (hi : i < n) :
    (littleEndian n v).getD i 0 = v.extractLsb' (8 * i) 8 := by
  induction n generalizing v i with
  | zero => omega
  | succ n ih =>
    cases i with
    | zero => exact BitVec.setWidth_eq_extractLsb' (x := v) (by decide)
    | succ i =>
      rw [littleEndian, List.getD_cons_succ, ih _ (by omega)]
      apply BitVec.eq_of_getLsbD_eq
      intro k _
      simp [Nat.mul_add, Nat.add_comm, Nat.add_left_comm]

theorem fieldBytes_of_ne_fan {f : Field} (hf : f ≠ .fan) (v : Word) :
    fieldBytes f v = littleEndian f.size v := by
  cases f with
  | fan => exact absurd rfl hf
  | _ => rfl

theorem State.fieldIllegal_own {s : State} {f : Field} (h : f = .cond → s.condEn = true) :
    s.fieldIllegal f.ty f = false := by
  rw [← Bool.not_eq_true, State.fieldIllegal_iff]
  rintro (⟨hf, hc⟩ | hty)
  · rw [h hf] at hc
    cases hc
  · exact hty rfl

section
variable {s : State} {t : FxTy} {f : Field}

theorem exec_fset_of_legal (h : s.fieldIllegal t f = false) (ra : Reg) :
    exec (.fset t f ra) s =
      .next (s.putFrame (f.offset s.condEn) (fieldBytes f (s.reg ra)) false) :=
  if_neg (by simp [h])

theorem exec_fget_of_legal (h : s.fieldIllegal t f = false) (rd : Reg) :
    exec (.fget t rd f) s =
      .next (s.setReg rd (fieldContainer t f (s.frameValue (f.offset s.condEn) f.size))) :=
  if_neg (by simp [h])

end

/-- A stored byte, seen through FRAME. -/
theorem State.frameByte_putFrame_inside (s : State) (k : Nat) {bytes : List Byte} (mark : Bool)
    {i : Nat} (hi : i < bytes.length) :
    (s.putFrame k bytes mark).frameByte (k + i) = bytes.getD i 0 := by
  rw [State.frameByte_putFrame, if_pos (by omega), Nat.add_sub_cancel_left]

/-- Settles O27: the table of R64 and R167 by computation, and FSET as the store of its field's bytes. -/
theorem fsetStoresField : Obligations.FsetStoresField := by
  refine ⟨rfl, rfl, rfl, rfl, fun s f ra hpresent => ?_⟩
  refine ⟨_, exec_fset_of_legal (State.fieldIllegal_own hpresent) ra, rfl, ?frame, ?fan, ?bytes⟩
  case frame =>
    have hframe := changesOnlyFrame_putFrame s (f.offset s.condEn) (fieldBytes f (s.reg ra)) false
    rwa [fieldBytes_length] at hframe
  case fan =>
    rintro rfl
    exact s.frameByte_putFrame_inside _ false (i := 0) Nat.one_pos
  case bytes =>
    intro hf i hi
    rw [State.frameByte_putFrame_inside _ _ _ (by rwa [fieldBytes_length]), fieldBytes_of_ne_fan hf,
      littleEndian_getD _ _ hi]

/-! ### What FGET reads -/

/-- The bytes of a little-endian value (R65). -/
theorem State.frameValue_byte (s : State) (k n : Nat) {i : Nat} (hi : i < n) :
    s.frameValue k n / 2 ^ (8 * i) % 2 ^ 8 = (s.frameByte (k + i)).toNat := by
  induction n generalizing k i with
  | zero => omega
  | succ n ih =>
    have hlt := (s.frameByte k).isLt
    rw [State.frameValue]
    cases i with
    | zero =>
      simp only [Nat.mul_zero, pow_zero, Nat.div_one, Nat.add_zero]
      omega
    | succ i =>
      have hpow : 2 ^ (8 * (i + 1)) = 256 * 2 ^ (8 * i) := by ring
      have hshift : ((s.frameByte k).toNat + 256 * s.frameValue (k + 1) n) / 256 =
          s.frameValue (k + 1) n := by omega
      rw [hpow, ← Nat.div_div_eq_div_mul, hshift, ih (k + 1) (by omega), Nat.add_right_comm,
        Nat.add_assoc]

/-- The bytes of the word FGET reads before it is made a container (R169). -/
theorem State.extractLsb'_frameValue (s : State) (k n : Nat) {i : Nat} (hi : i < n) (h4 : i < 4) :
    (BitVec.ofNat 32 (s.frameValue k n)).extractLsb' (8 * i) 8 = s.frameByte (k + i) := by
  apply BitVec.eq_of_toNat_eq
  rw [BitVec.extractLsb'_toNat, BitVec.toNat_ofNat, Nat.shiftRight_eq_div_pow,
    ← s.frameValue_byte k n hi]
  have hpow : 2 ^ 32 = 2 ^ (8 * i) * 2 ^ (32 - 8 * i) := by rw [← pow_add]; congr 1; omega
  rw [hpow, Nat.mod_mul_right_div_self, Nat.mod_mod_of_dvd _ (pow_dvd_pow 2 (by omega))]

theorem field_size_le (f : Field) : f.size ≤ 4 := by cases f <;> decide

/-- COND and FAN are one byte. -/
theorem State.frameValue_one (s : State) (k : Nat) : s.frameValue k 1 = (s.frameByte k).toNat := rfl

theorem fieldContainer_cond (t : FxTy) (b : Byte) :
    fieldContainer t .cond b.toNat = b.setWidth 32 := by
  rw [fieldContainer, BitVec.ofNat_toNat]

theorem fieldContainer_fan (t : FxTy) (b : Byte) :
    fieldContainer t .fan b.toNat = if b = 0 then 0 else 1 := by
  simp [fieldContainer, ← BitVec.toNat_inj]

theorem fieldContainer_of_fixedPoint {f : Field} (hfan : f ≠ .fan) (hcond : f ≠ .cond) (t : FxTy)
    (raw : Nat) : fieldContainer t f raw = t.canon (t.val (BitVec.ofNat 32 raw)) := by
  cases f with
  | fan => exact absurd rfl hfan
  | cond => exact absurd rfl hcond
  | _ => rfl

/-- A container keeps the low bytes of the word it is made from. -/
theorem extractLsb'_canon_val (f : Field) (v : Word) {i : Nat} (hi : i < f.size) :
    (f.ty.canon (f.ty.val v)).extractLsb' (8 * i) 8 = v.extractLsb' (8 * i) 8 := by
  have hw : 8 * i + 8 ≤ f.ty.width := by rw [f.width_ty]; omega
  rw [← extractLsb'_setWidth_of_le _ hw, FxTy.setWidth_canon_val, extractLsb'_setWidth_of_le _ hw]

/-- The word FGET makes of a field other than FAN is canonical, and its low bytes are the field's
(R169). -/
theorem fieldContainer_frameValue (s : State) {f : Field} (hfan : f ≠ .fan) (k : Nat) :
    f.ty.canonical (fieldContainer f.ty f (s.frameValue k f.size)) ∧
      ∀ i, i < f.size →
        (fieldContainer f.ty f (s.frameValue k f.size)).extractLsb' (8 * i) 8 =
          s.frameByte (k + i) := by
  have hread : ∀ i, i < f.size → (BitVec.ofNat 32 (s.frameValue k f.size)).extractLsb' (8 * i) 8 =
      s.frameByte (k + i) := fun i hi =>
    s.extractLsb'_frameValue k _ hi (hi.trans_le (field_size_le f))
  by_cases hcond : f = .cond
  · subst hcond
    refine ⟨?_, hread⟩
    change Field.cond.ty.canonical (fieldContainer _ .cond (s.frameValue k 1))
    rw [State.frameValue_one, fieldContainer_cond]
    have hbyte : ((s.frameByte k).setWidth 32).setWidth 8 = s.frameByte k := by
      rw [BitVec.setWidth_setWidth_of_le _ (by decide), BitVec.setWidth_eq]
    exact congrArg (BitVec.setWidth 32) hbyte.symm
  · rw [fieldContainer_of_fixedPoint hfan hcond]
    exact ⟨f.ty.canonical_canon _, fun i hi => (extractLsb'_canon_val f _ hi).trans (hread i hi)⟩

/-- Settles O28: FGET writes one register, with the container of its field's bytes. -/
theorem fgetReadsField : Obligations.FgetReadsField := by
  intro s f rd hpresent
  refine ⟨_, exec_fget_of_legal (State.fieldIllegal_own hpresent) rd, changesOnlyReg_setReg s rd _, ?_⟩
  rw [State.reg_setReg_same]
  refine ⟨?fan, ?cond, fun hfan => fieldContainer_frameValue s hfan _⟩
  case fan =>
    rintro rfl
    exact fieldContainer_fan _ _
  case cond =>
    rintro rfl
    exact fieldContainer_cond _ _

/-! ### The round trip -/

/-- Settles O29: FGET reads the bytes FSET stored, and a canonical container with the source's low bytes
is the container of the source's value. -/
theorem fgetAfterFset : Obligations.FgetAfterFset := by
  intro s f ra rd hpresent
  obtain ⟨-, -, -, -, hset⟩ := fsetStoresField
  obtain ⟨u, hfset, -, ⟨-, -, hrest⟩, hfan, hbytes⟩ := hset s f ra hpresent
  have hlayout : u.condEn = s.condEn := by rw [hrest]
  obtain ⟨v, hfget, -, hfan', -, hread⟩ := fgetReadsField u f rd fun hf => hlayout.trans (hpresent hf)
  rw [hlayout] at hfan' hread
  refine ⟨u, v, hfset, hfget, fun hf => ?_, fun hf => ?_⟩
  · rw [hfan' hf, hfan hf]
    split <;> rfl
  · obtain ⟨hcanon, hsame⟩ := hread hf
    exact f.eq_canon_of_bytes hcanon fun i hi => (hsame i hi).trans (hbytes hf i hi)

end Machine
end Sys2Proof
end

section
/-! PROOF. The PCU (43_pulse.md): what a tick and an edge do to the timers and to EDGE_CNT (R190, R191),
what PPOLL and PRATE write (R194 to R197), and that outside RESET only PPOLL's sample branch writes the
sample state (R198). -/

namespace Sys2Proof.Machine

/-! ### The tick -/

section
variable {s : State}

theorem State.countDown_of_idle (h : s.forceRemain.toNat = 0) : s.countDown = s :=
  if_pos (BitVec.eq_of_toNat_eq h)

theorem State.countDown_of_last (h : s.forceRemain.toNat = 1) :
    s.countDown = { s with forceRemain := 0, forceTier := 0 } := by
  have hone : s.forceRemain = 1 := BitVec.eq_of_toNat_eq h
  simp [State.countDown, hone]

theorem State.countDown_of_running (h : 2 ≤ s.forceRemain.toNat) :
    s.countDown = { s with forceRemain := s.forceRemain - 1 } := by
  have hzero : s.forceRemain ≠ 0 := by bv_omega
  have hone : s.forceRemain ≠ 1 := by bv_omega
  rw [State.countDown, if_neg hzero, if_neg hone]

end

theorem step_tickInstant {s : State} {rest : List Instant} (hin : s.inputs = tickInstant :: rest) :
    step s = .next { s with inputs := rest }.tickStep := by
  rw [step, hin]
  rfl

/-- Settles O34: a tick counts the override down by one of the three cases of R225 and advances NOW_MS,
and touches nothing else. -/
theorem tickAdvancesTimers : Obligations.TickAdvancesTimers := by
  intro s rest hin
  refine ⟨_, step_tickInstant hin, BitVec.toNat_add _ _, fun h => ?idle, fun h => ?last,
    fun h => ?running, ?frame⟩
  case idle =>
    rw [State.tickStep, State.countDown_of_idle (s := { s with inputs := rest }) h]
    exact ⟨rfl, rfl⟩
  case last =>
    rw [State.tickStep, State.countDown_of_last (s := { s with inputs := rest }) h]
    exact ⟨rfl, rfl⟩
  case running =>
    rw [State.tickStep, State.countDown_of_running (s := { s with inputs := rest }) h]
    exact ⟨BitVec.toNat_sub_of_le (y := 1) (BitVec.le_def.2 (Nat.le_of_succ_le h)), rfl⟩
  case frame =>
    obtain ⟨remain, tier, htick⟩ := { s with inputs := rest }.tickStep_changesOnlyTimers
    rw [htick]

/-! ### The edge -/

/-- EDGE_CNT after a level on EDGE_IN: a falling transition counts, up to 0xFFFF (R191). -/
theorem State.edgeCnt_edgeStep (s : State) (level : Bool) :
    (s.edgeStep level).edgeCnt.toNat =
      if s.edgePrev = true ∧ level = false then min (s.edgeCnt.toNat + 1) 0xFFFF
      else s.edgeCnt.toNat := by
  by_cases hfall : s.edgePrev = true ∧ level = false
  · rw [if_pos hfall]
    obtain ⟨hprev, rfl⟩ := hfall
    by_cases hfull : s.edgeCnt = 0xFFFF
    · simp [State.edgeStep, hfull]
    · have hcnt : (s.edgeStep false).edgeCnt = s.edgeCnt + 1 := by
        simpa [State.edgeStep, hprev] using hfull
      rw [hcnt]
      bv_omega
  · have hcond : (s.edgePrev && !level && s.edgeCnt != 0xFFFF) = false := by grind
    rw [if_neg hfall]
    simp only [State.edgeStep, hcond, Bool.false_eq_true, if_false]

theorem step_edgeInstant {s : State} {level : Bool} {rest : List Instant}
    (hin : s.inputs = edgeInstant level :: rest) :
    step s = .next ({ s with inputs := rest }.edgeStep level) := by
  rw [step, hin]
  rfl

/-- Settles O33: the step is one edge, which writes EDGE_CNT and EDGE_PREV alone. -/
theorem edgeStepCountsFalling : Obligations.EdgeStepCountsFalling := fun s level rest hin =>
  ⟨_, step_edgeInstant hin, State.edgeCnt_edgeStep { s with inputs := rest } level, rfl⟩

@[simp] theorem State.tickStep_edgeCnt (s : State) : s.tickStep.edgeCnt = s.edgeCnt := by
  obtain ⟨_, _, h⟩ := s.tickStep_changesOnlyTimers
  rw [h]

/-- An edge never lowers EDGE_CNT (R191). -/
theorem State.edgeCnt_le_edgeStep (s : State) (level : Bool) :
    s.edgeCnt.toNat ≤ (s.edgeStep level).edgeCnt.toNat := by
  rw [s.edgeCnt_edgeStep]
  split <;> omega

/-- An instant without an edge leaves EDGE_CNT: a tick does not touch it. -/
theorem State.edgeCnt_edgeAndTick_of_none (s : State) {i : Instant} (h : i.edge = none) :
    (s.edgeAndTick i).edgeCnt = s.edgeCnt := by
  rw [State.edgeAndTick, h]
  split
  · exact s.tickStep_edgeCnt
  · rfl

theorem State.edgeCnt_le_edgeAndTick (s : State) (i : Instant) :
    s.edgeCnt.toNat ≤ (s.edgeAndTick i).edgeCnt.toNat := by
  cases hedge : i.edge with
  | none => rw [s.edgeCnt_edgeAndTick_of_none hedge]
  | some level =>
    rw [State.edgeAndTick, hedge]
    split
    · rw [State.tickStep_edgeCnt]
      exact s.edgeCnt_le_edgeStep level
    · exact s.edgeCnt_le_edgeStep level

/-! ### PPOLL and PRATE -/

/-- PPOLL finds no new sample: less than SAMPLE_MIN, or nothing, has elapsed since the last (R194). -/
def State.noNewSample (s : State) : Prop :=
  s.elapsed s.lastSample < s.sampleMin ∨ s.elapsed s.lastSample = 0

/-- elapsed(t) as a natural number (R192). -/
theorem State.toNat_elapsed (s : State) (t : Word) :
    (s.elapsed t).toNat = (s.nowMs.toNat + 2 ^ 32 - t.toNat) % 2 ^ 32 := by
  rw [State.elapsed, BitVec.toNat_sub]
  congr 1
  omega

theorem State.noNewSample_iff (s : State) :
    s.noNewSample ↔ (s.elapsed s.lastSample).toNat < s.sampleMin.toNat ∨
      (s.elapsed s.lastSample).toNat = 0 :=
  or_congr BitVec.lt_def BitVec.toNat_eq

/-- The state after PPOLL takes a sample, but for its result in RD (R195). -/
def State.takeSample (s : State) : State :=
  { s with
    edgeCnt := 0
    rate := pulseRate s.edgeCnt s.rptPeriod (s.elapsed s.lastSample)
    rateValid := true
    lastSample := s.nowMs }

theorem exec_ppoll_of_noNewSample {s : State} (h : s.noNewSample) (rd : Reg) :
    exec (.ppoll rd) s = .next (s.setReg rd 0) :=
  if_pos h

theorem exec_ppoll_of_newSample {s : State} (h : ¬s.noNewSample) (rd : Reg) :
    exec (.ppoll rd) s = .next (s.takeSample.setReg rd 1) :=
  if_neg h

/-- The rate is the exact quotient: two 16-bit factors have a product below 2^32, so nothing is lost in
the container (R195). -/
theorem toNat_pulseRate (count period : BitVec 16) (elapsed : Word) :
    (pulseRate count period elapsed).toNat = count.toNat * period.toNat / elapsed.toNat := by
  have hproduct : count.toNat * period.toNat < 2 ^ 16 * 2 ^ 16 :=
    Nat.mul_lt_mul'' count.isLt period.isLt
  rw [pulseRate, BitVec.toNat_ofNat, Nat.mod_eq_of_lt]
  exact (Nat.div_le_self _ _).trans_lt hproduct

/-- Settles O31: the two branches of R194, told apart by the elapsed time as a natural number. -/
theorem ppollSamplesWindow : Obligations.PpollSamplesWindow := by
  intro s rd el hel
  rw [← State.toNat_elapsed] at hel
  have hiff := s.noNewSample_iff
  rw [← hel] at hiff
  by_cases hno : s.noNewSample
  · refine ⟨_, exec_ppoll_of_noNewSample hno rd, fun r => s.reg_setReg_other rd r 0, fun _ => rfl,
      fun _ => ⟨s.reg_setReg_same rd 0, rfl⟩, fun hlo hne => ?_⟩
    have := hiff.1 hno
    omega
  · refine ⟨_, exec_ppoll_of_newSample hno rd, fun r => s.takeSample.reg_setReg_other rd r 1,
      fun _ => rfl, fun h => absurd (hiff.2 h) hno, fun _ _ => ⟨State.reg_setReg_same _ rd 1, ?_, rfl⟩⟩
    rw [hel]
    exact toNat_pulseRate _ _ _

/-- PRATE's result: RATE where it is a valid s32.0 value, and INV otherwise (R197). -/
def State.prateWord (s : State) : Word :=
  if s.rateValid = true ∧ s.rate ≤ 0x7FFFFFFF then s.rate else 0x80000000

theorem exec_prate (s : State) (rd : Reg) : exec (.prate rd) s = .next (s.setReg rd s.prateWord) := rfl

theorem State.prateWord_of_valid {s : State} (hvalid : s.rateValid = true)
    (hrate : s.rate.toNat < 2 ^ 31) : s.prateWord = s.rate :=
  if_pos ⟨hvalid, BitVec.le_def.2 (Nat.le_of_lt_succ hrate)⟩

theorem State.prateWord_of_invalid {s : State} (h : s.rateValid = false ∨ 2 ^ 31 ≤ s.rate.toNat) :
    s.prateWord = 0x80000000 := by
  refine if_neg fun ⟨hvalid, hrate⟩ => ?_
  have hrate : s.rate.toNat ≤ 0x7FFFFFFF := hrate
  rcases h with h | h
  · simp [hvalid] at h
  · omega

/-- A word below 2^31 is its own s32.0 value (R12). -/
theorem val_s32_of_lt {v : Word} (h : v.toNat < 2 ^ 31) : (FxTy.mk .s32 .zero).val v = v.toNat := by
  change (v.setWidth 32).toInt = v.toNat
  rw [BitVec.setWidth_eq, BitVec.toInt_eq_toNat_of_lt (by omega)]

/-- Settles O32: the two cases of PRATE's result, read as s32.0. -/
theorem prateAnswersCachedRate : Obligations.PrateAnswersCachedRate := by
  intro s rd
  refine ⟨_, exec_prate s rd, changesOnlyReg_setReg s rd _, ?_⟩
  rw [State.reg_setReg_same]
  refine ⟨fun hvalid hrate => ?_, fun h => ?_⟩
  · rw [State.prateWord_of_valid hvalid hrate]
    exact ⟨rfl, val_s32_of_lt hrate⟩
  · rw [State.prateWord_of_invalid h]
    decide

/-! ### Who writes the sample state -/

/-- EDGE_CNT and what PPOLL's sample branch writes are the same in both states (R198). -/
def sameSampleState (s t : State) : Prop :=
  t.lastSample = s.lastSample ∧ t.rate = s.rate ∧ t.rateValid = s.rateValid ∧ t.edgeCnt = s.edgeCnt

theorem sameSampleState.refl (s : State) : sameSampleState s s := ⟨rfl, rfl, rfl, rfl⟩

/-- A command leaves the sample state, unless it is a PPOLL that finds a new sample (R198). -/
theorem exec_sameSampleState {i : Instr} {s t : State} (h : exec i s = .next t)
    (hpoll : ∀ rd, i = .ppoll rd → s.noNewSample) : sameSampleState s t := by
  cases i with
  | ppoll rd =>
    rw [exec_ppoll_of_noNewSample (hpoll rd rfl)] at h
    cases h
    exact .refl s
  | fmt | fverify | fset | fget =>
    simp only [exec, execFmt, execFverify, execFset, execFget] at h
    split at h <;> cases h <;> exact .refl s
  | ftick =>
    simp only [exec, execFtick] at h
    split at h
    case isTrue => cases h; exact .refl s
    case isFalse => split at h <;> cases h <;> exact .refl s
  | _ => cases h; exact .refl s

theorem runCommand_sameSampleState {word : Word} {s t : State} (h : runCommand word s = .next t)
    (hpoll : ∀ rd, decode word = .ok (.ppoll rd) → s.noNewSample) : sameSampleState s t := by
  cases hdec : decode word with
  | ok i =>
    rw [runCommand_of_decode hdec] at h
    exact exec_sameSampleState (s := { s with cmdWord := word }) h fun rd hi => hpoll rd (hi ▸ hdec)
  | error r =>
    rw [runCommand, hdec] at h
    cases h
    exact .refl s

theorem sameSampleState_writeStatus (s : State) (data : Word) :
    sameSampleState s (s.writeStatus data) := by
  unfold State.writeStatus
  split <;> exact .refl s

theorem sameSampleState_writeCtrl (s : State) (data : Word) :
    sameSampleState s (s.writeCtrl data) := by
  unfold State.writeCtrl
  split <;> exact .refl s

theorem sameSampleState_writeFrameWord (s : State) (q : Nat) (data : Word) (be : BitVec 4) :
    sameSampleState s (s.writeFrameWord q data be) :=
  State.writeFrameWord_keeps (P := sameSampleState s) (fun _ _ _ _ => id) q data be (.refl s)

/-- A write to a register other than CMD leaves the sample state. -/
theorem State.writeReg_sameSampleState {s t : State} {r : HostReg} {data : Word} {be : BitVec 4}
    (h : s.writeReg r data be = .next t) (hcmd : r ≠ .cmd) : sameSampleState s t := by
  cases r with
  | cmd => exact absurd rfl hcmd
  | status => cases h; exact sameSampleState_writeStatus s data
  | ctrl => cases h; exact sameSampleState_writeCtrl s data
  | frame q => cases h; exact sameSampleState_writeFrameWord s q.val data be
  | _ => cases h; exact .refl s

/-- The host access is no PPOLL command that finds a new sample. -/
def HostAccess.noSample (access : HostAccess) (s : State) : Prop :=
  ∀ a w rd, access = .write a w 0xF → hostReg a = .cmd → decode w = .ok (.ppoll rd) → s.noNewSample

theorem hostStep_sameSampleState {access : HostAccess} {s t : State}
    (h : hostStep access s = .next t) (hno : access.noSample s) : sameSampleState s t := by
  cases access with
  | read addr => cases h; exact .refl s
  | write addr data be =>
    simp only [hostStep, State.hostWrite] at h
    split at h
    case isTrue hbe =>
      by_cases hcmd : hostReg addr = .cmd
      · have hfull : be = 0xF := by simpa [hcmd, HostReg.isFrame] using hbe
        rw [hcmd] at h
        exact runCommand_sameSampleState h fun rd => hno addr data rd (by rw [hfull]) hcmd
      · exact State.writeReg_sameSampleState h hcmd
    case isFalse => cases h; exact .refl s

/-- What an instant's edge and tick do after a host access that left the sample state (R198). -/
theorem sameSampleState.edgeAndTick {s u : State} (h : sameSampleState s u) (i : Instant) :
    (u.edgeAndTick i).lastSample = s.lastSample ∧ (u.edgeAndTick i).rate = s.rate ∧
      (u.edgeAndTick i).rateValid = s.rateValid ∧
      s.edgeCnt.toNat ≤ (u.edgeAndTick i).edgeCnt.toNat ∧
      (i.edge = none → (u.edgeAndTick i).edgeCnt = s.edgeCnt) := by
  obtain ⟨hlast, hrate, hvalid, hcnt⟩ := h
  rw [← hlast, ← hrate, ← hvalid, ← hcnt]
  obtain ⟨_, _, _, _, _, htimers⟩ := u.edgeAndTick_changesOnlyTimers i
  exact ⟨by rw [htimers], by rw [htimers], by rw [htimers], u.edgeCnt_le_edgeAndTick i,
    u.edgeCnt_edgeAndTick_of_none⟩

/-- Settles O35: a host access that takes no sample leaves the sample state, and after it the edge only
raises EDGE_CNT and the tick leaves it. -/
theorem pulseStateOwnership : Obligations.PulseStateOwnership := by
  intro s t i rest hin h hreset hno
  suffices hsame : ∃ u, t = u.edgeAndTick i ∧ sameSampleState s u by
    obtain ⟨u, rfl, hu⟩ := hsame
    exact hu.edgeAndTick i
  obtain ⟨u, rfl, ⟨-, rfl⟩ | ⟨access, hhost, hu⟩⟩ := step_without_reset hin hreset h
  · exact ⟨_, rfl, .refl s⟩
  · have hacc : access.noSample { s with inputs := rest } := fun a w rd ha =>
      hno a w rd (hhost.trans (congrArg _ ha))
    exact ⟨u, rfl, hostStep_sameSampleState (s := { s with inputs := rest }) hu hacc⟩

end Sys2Proof.Machine
end

section
/-! PROOF. The CFU (45_condition_fan.md): the force-override ladder and its countdown, with the
invariant every step keeps (R224, R225, R226), the six steps of CLASSIFY (R211) and the three cases of
FTICK (R221). -/

namespace Sys2Proof.Machine

/-! ### The ladder -/

/-- The durations of R39 as numbers. -/
theorem ladderMs_getD_toNat (k : Nat) :
    (ladderMs.getD k 0).toNat = [0, 60000, 300000, 900000, 3600000, 7200000].getD k 0 :=
  (List.getD_map (l := ladderMs) (d := 0) (n := k) BitVec.toNat).symm

/-- Tier 0 alone has no duration. -/
theorem ladderMs_getD_eq_zero_iff {k : Nat} (hk : k < 6) : ladderMs.getD k 0 = 0 ↔ k = 0 := by
  revert k
  decide

/-- The state after FPRESS (R224). -/
def State.press (s : State) : State :=
  { s with
    forceTier := BitVec.ofNat 3 ((s.forceTier.toNat + 1) % 6)
    forceRemain := ladderMs.getD ((s.forceTier.toNat + 1) % 6) 0 }

theorem exec_fpress (s : State) : exec .fpress s = .next s.press := rfl

theorem State.press_forceTier (s : State) :
    s.press.forceTier.toNat = (s.forceTier.toNat + 1) % 6 := by
  rw [State.press, BitVec.toNat_ofNat, Nat.mod_eq_of_lt (by omega)]

/-- The whole duration of the tier remains (R39). -/
def State.atFullDuration (s : State) : Prop := s.forceRemain = ladderMs.getD s.forceTier.toNat 0

theorem State.press_atFullDuration (s : State) : s.press.atFullDuration := by
  rw [State.atFullDuration, s.press_forceTier]
  rfl

/-- A full duration as a number, by the tier's number. -/
theorem State.atFullDuration.toNat_forceRemain {s : State} {k : Nat} (h : s.atFullDuration)
    (hk : s.forceTier.toNat = k) :
    s.forceRemain.toNat = [0, 60000, 300000, 900000, 3600000, 7200000].getD k 0 := by
  rw [h, hk, ladderMs_getD_toNat]

/-- Settles O38: the next tier modulo 6, at its full duration. -/
theorem fpressClimbsLadder : Obligations.FpressClimbsLadder := fun s =>
  ⟨s.press, exec_fpress s, s.press_forceTier,
    s.press_atFullDuration.toNat_forceRemain s.press_forceTier, fun _ => rfl, fun _ => rfl, rfl⟩

/-! ### The override invariant -/

/-- A full duration of a legal tier meets the invariant. -/
theorem State.atFullDuration.forceInv {s : State} (h : s.atFullDuration)
    (htier : s.forceTier.toNat < 6) : s.forceInv := by
  refine ⟨Nat.le_of_lt_succ htier, ?_, BitVec.le_of_eq h⟩
  rw [h, ladderMs_getD_eq_zero_iff htier, BitVec.toNat_eq]
  rfl

/-- No override: tier 0 and its duration 0. -/
theorem State.forceInv_of_idle {s : State} (htier : s.forceTier = 0) (hremain : s.forceRemain = 0) :
    s.forceInv := by
  have hfull : s.atFullDuration := by rw [State.atFullDuration, htier, hremain]; rfl
  exact hfull.forceInv (by rw [htier]; decide)

theorem State.press_forceInv (s : State) : s.press.forceInv := by
  refine s.press_atFullDuration.forceInv ?_
  rw [s.press_forceTier]
  exact Nat.mod_lt _ (by omega)

theorem CommandEffect.keeps_forceInv {s t : State} (h : CommandEffect s t) (hs : s.forceInv) :
    t.forceInv := by
  cases h with
  | presses => exact s.press_forceInv
  | _ => exact hs

theorem HostEffect.keeps_forceInv {s t : State} (h : HostEffect s t) (hs : s.forceInv) :
    t.forceInv := by
  cases h with
  | command word _ hcmd => exact hcmd.keeps_forceInv hs
  | writesFrame q data be =>
    exact State.writeFrameWord_keeps (P := State.forceInv) (fun _ _ _ _ => id) q.val data be hs
  | _ => exact hs

/-- One ms less of an override that goes on is within the same tier's duration, and the last ms ends
tier and countdown together (R225). -/
theorem State.forceInv.countDown {s : State} (hs : s.forceInv) : s.countDown.forceInv := by
  obtain hidle | hlast | hrunning :
      s.forceRemain.toNat = 0 ∨ s.forceRemain.toNat = 1 ∨ 2 ≤ s.forceRemain.toNat := by omega
  · rwa [State.countDown_of_idle hidle]
  · rw [State.countDown_of_last hlast]
    exact State.forceInv_of_idle rfl rfl
  · rw [State.countDown_of_running hrunning]
    obtain ⟨htier, hzero, hle⟩ := hs
    have hremain : s.forceRemain ≠ 0 := by bv_omega
    have hnext : s.forceRemain - 1 ≠ 0 := by bv_omega
    have hless : s.forceRemain - 1 ≤ s.forceRemain := by bv_omega
    exact ⟨htier, iff_of_false hnext (hzero.not.1 hremain), BitVec.le_trans hless hle⟩

/-- What single edges and ticks keep, the edge and the tick of an instant keep (R247). -/
theorem State.edgeAndTick_keeps {P : State → Prop}
    (hedge : ∀ (s : State) level, P s → P (s.edgeStep level))
    (htick : ∀ s : State, P s → P s.tickStep) {s : State} (i : Instant) (hs : P s) :
    P (s.edgeAndTick i) := by
  have hafter (u : State) (hu : P u) : P (if i.tick then u.tickStep else u) := by
    split
    · exact htick u hu
    · exact hu
  unfold State.edgeAndTick
  cases i.edge with
  | none => exact hafter s hs
  | some level => exact hafter _ (hedge s level hs)

theorem State.forceInv.edgeAndTick {s : State} (i : Instant) (hs : s.forceInv) :
    (s.edgeAndTick i).forceInv :=
  State.edgeAndTick_keeps (P := State.forceInv) (fun _ _ => id) (fun _ hu => hu.countDown) i hs

/-- RESET ends the override (R260). -/
theorem State.forceInv_resetStep (s : State) : s.resetStep.forceInv :=
  State.forceInv_of_idle rfl rfl

/-- Settles O57: RESET and a press establish the invariant, a tick's countdown keeps it, and nothing else
writes FORCE_TIER or FORCE_REMAIN. -/
theorem overrideInvariantKept : Obligations.OverrideInvariantKept := by
  intro s t hs h
  obtain ⟨-, rfl⟩ | ⟨i, rest, -, ⟨-, rfl⟩ | ⟨-, u, hu, rfl⟩⟩ := step_cases h
  · exact hs
  · exact State.forceInv_resetStep _
  · exact (hu.keeps_forceInv (s := { s with inputs := rest }) hs).edgeAndTick i

/-! ### Presses and ticks in a row -/

theorem runSteps_succ {n : Nat} {s u : State} (h : step s = .next u) :
    runSteps (n + 1) s = runSteps n u := by
  rw [runSteps, h]

/-- The step that takes an FPRESS word goes to the next tier, at its full duration (R90, R224). -/
theorem step_fpress {s : State} {rest : List Instant}
    (hin : s.inputs = commandInstant 0x3A000000 :: rest) :
    ∃ u, step s = .next u ∧ u.inputs = rest ∧
      u.forceTier.toNat = (s.forceTier.toNat + 1) % 6 ∧ u.atFullDuration :=
  ⟨_, step_commandInstant (i := .fpress) hin (by decide), rfl, State.press_forceTier _,
    State.press_atFullDuration _⟩

/-- n presses climb n tiers modulo 6, and after a press the tier's full duration remains. -/
theorem runSteps_fpress (n : Nat) (s : State) (rest : List Instant)
    (hin : s.inputs = List.replicate n (commandInstant 0x3A000000) ++ rest)
    (htier : s.forceTier.toNat < 6) :
    ∃ t, runSteps n s = some t ∧ t.forceTier.toNat = (s.forceTier.toNat + n) % 6 ∧
      (0 < n ∨ s.atFullDuration → t.atFullDuration) := by
  induction n generalizing s with
  | zero => exact ⟨s, rfl, (Nat.mod_eq_of_lt htier).symm, fun h => h.resolve_left (lt_irrefl 0)⟩
  | succ n ih =>
    obtain ⟨u, hstep, hinputs, hutier, hufull⟩ := step_fpress hin
    obtain ⟨t, hrun, httier, hfull⟩ := ih u hinputs (hutier.trans_lt (Nat.mod_lt _ (by omega)))
    refine ⟨t, (runSteps_succ hstep).trans hrun, ?_, fun _ => hfull (.inr hufull)⟩
    rw [httier, hutier, Nat.mod_add_mod, add_right_comm, add_assoc]

/-- Settles O39: from tier 0, n presses reach tier n mod 6, at its full duration after the first. -/
theorem ladderCyclesWithPeriodSix : Obligations.LadderCyclesWithPeriodSix := by
  intro n s rest hin hzero
  have hk : s.forceTier.toNat = 0 := by rw [hzero]; rfl
  obtain ⟨t, hrun, htier, hfull⟩ := runSteps_fpress n s rest hin (by omega)
  rw [hk, Nat.zero_add] at htier
  exact ⟨t, hrun, htier, fun hn => (hfull (.inl hn)).toNat_forceRemain htier⟩

/-- Settles O40, by induction on the ticks: each takes one ms off the override and keeps the invariant,
which puts the ladder back at 0 where no ms remains. -/
theorem overrideLastsItsDuration : Obligations.OverrideLastsItsDuration := by
  intro n
  induction n with
  | zero =>
    intro s rest _ hinv
    obtain ⟨-, hzero, -⟩ := hinv
    exact ⟨s, rfl, rfl, (Nat.mod_eq_of_lt s.nowMs.isLt).symm, fun _ => rfl, fun h =>
      hzero.1 (BitVec.eq_of_toNat_eq (Nat.le_zero.1 h))⟩
  | succ n ih =>
    intro s rest hin hinv
    obtain ⟨u, hstep, hnow, hidle, hlast, hrunning, hframe⟩ := tickAdvancesTimers s _ hin
    have hremain : u.forceRemain.toNat = s.forceRemain.toNat - 1 := by
      obtain h | h | h :
          s.forceRemain.toNat = 0 ∨ s.forceRemain.toNat = 1 ∨ 2 ≤ s.forceRemain.toNat := by omega
      · rw [(hidle h).1, h]
      · rw [(hlast h).1, h]; rfl
      · exact (hrunning h).1
    have hinputs : u.inputs = List.replicate n tickInstant ++ rest := by rw [hframe]; rfl
    obtain ⟨t, hrun, htremain, htnow, hbefore, hover⟩ :=
      ih u rest hinputs (overrideInvariantKept s u hinv hstep)
    refine ⟨t, (runSteps_succ hstep).trans hrun, by omega, by omega, fun h => ?_, fun h =>
      hover (by omega)⟩
    exact (hbefore (by omega)).trans (hrunning (by omega)).2

/-! ### CLASSIFY -/

theorem ltUnder_iff (t : FxTy) (a b : Int) :
    ltUnder t a b = true ↔ a ≠ t.minT ∧ b ≠ t.minT ∧ a < b := by
  rw [ltUnder, compareUnder_iff, decide_eq_true_iff]

theorem leUnder_iff (t : FxTy) (a b : Int) :
    leUnder t a b = true ↔ a ≠ t.minT ∧ b ≠ t.minT ∧ a ≤ b := by
  rw [leUnder, compareUnder_iff, decide_eq_true_iff]

theorem gtUnder_iff (t : FxTy) (a b : Int) :
    gtUnder t a b = true ↔ a ≠ t.minT ∧ b ≠ t.minT ∧ b < a := by
  rw [gtUnder, compareUnder_iff, decide_eq_true_iff]

/-- One of two readings is invalid: the test of steps 1 and 4 of R211. -/
theorem invalidReading_iff (t : FxTy) (a b : Int) :
    (!t.valid a || !t.valid b) = true ↔ a = t.minT ∨ b = t.minT := by
  simp [FxTy.valid]

/-- The six steps of R211 over the integers: of the comparisons' validity tests only the thresholds'
are left, since steps 1 and 4 have tested the readings. -/
theorem conditionCode_eq (t : FxTy) (hot cold tin tout vin vout : Int) :
    conditionCode t hot cold tin tout vin vout =
      if tin = t.minT ∨ tout = t.minT then 0
      else if hot ≠ t.minT ∧ hot < tin ∧ tin < tout then 1
      else if cold ≠ t.minT ∧ tin < cold ∧ tout < tin then 2
      else if vin = t.minT ∨ vout = t.minT then 0
      else if vin ≤ vout then 3
      else 4 := by
  simp only [conditionCode, invalidReading_iff]
  refine ite_congr rfl (fun _ => rfl) fun htemp => ?_
  obtain ⟨htin, htout⟩ := not_or.1 htemp
  simp only [Bool.and_eq_true, gtUnder_iff, ltUnder_iff, ne_eq, htin, htout, not_false_eq_true,
    true_and]
  refine ite_congr (by rw [and_assoc]) (fun _ => rfl) fun _ => ?_
  refine ite_congr (by rw [and_assoc]) (fun _ => rfl) fun _ => ?_
  refine ite_congr rfl (fun _ => rfl) fun hproxy => ?_
  obtain ⟨hvin, hvout⟩ := not_or.1 hproxy
  simp only [leUnder_iff, ne_eq, hvin, hvout, not_false_eq_true, true_and]

theorem exec_classify (s : State) (t : FxTy) (rd ra rb rc re : Reg) :
    exec (.classify t rd ra rb rc re) s = .next (s.setReg rd (conditionCode t (t.val s.hotTh)
      (t.val s.coldTh) (t.val (s.reg ra)) (t.val (s.reg rb)) (t.val (s.reg rc)) (t.val (s.reg re)))) :=
  rfl

/-- Settles O36: CLASSIFY writes the code of `conditionCode_eq`, whose branches are the six steps. -/
theorem classifyFirstMatch : Obligations.ClassifyFirstMatch := by
  rintro s t rd ra rb rc re tin tout vin vout hot cold rfl rfl rfl rfl rfl rfl
  refine ⟨_, exec_classify s t rd ra rb rc re, changesOnlyReg_setReg s rd _, ?_⟩
  rw [State.reg_setReg_same, conditionCode_eq]
  refine ⟨fun h => if_pos h, fun htin htout => ?_⟩
  rw [if_neg (not_or.2 ⟨htin, htout⟩)]
  refine ⟨fun h => if_pos h, fun hhot => ?_⟩
  rw [if_neg hhot]
  refine ⟨fun h => if_pos h, fun hcold => ?_⟩
  rw [if_neg hcold]
  refine ⟨fun h => if_pos h, fun hvin hvout hle => ?_, fun hvin hvout hlt => ?_⟩
  · rw [if_neg (not_or.2 ⟨hvin, hvout⟩), if_pos hle]
  · rw [if_neg (not_or.2 ⟨hvin, hvout⟩), if_neg hlt.not_ge]

/-! ### FTICK -/

/-- What a re-evaluation sets POWER to: Damp, and a valid supply value above a valid VMIN (R221). -/
def State.fanWanted (s : State) (t : FxTy) (ra rb : Reg) : Bool :=
  s.reg ra == 4 && gtUnder t (t.val (s.reg rb)) (t.val s.vmin)

theorem State.fanWanted_iff (s : State) (t : FxTy) (ra rb : Reg) :
    s.fanWanted t ra rb = true ↔ s.reg ra = 4 ∧ t.val (s.reg rb) ≠ t.minT ∧
      t.val s.vmin ≠ t.minT ∧ t.val s.vmin < t.val (s.reg rb) := by
  rw [State.fanWanted, Bool.and_eq_true, beq_iff_eq, gtUnder_iff]

section
variable {s : State} (t : FxTy) (ra rb : Reg)

theorem exec_ftick_of_override (h : s.forceRemain ≠ 0) :
    exec (.ftick t ra rb) s = .next { s with power := true } :=
  if_pos h

theorem exec_ftick_of_waiting (h : s.forceRemain = 0) (hel : s.elapsed s.lastEval < s.evalPeriod) :
    exec (.ftick t ra rb) s = .next s :=
  (if_neg (not_not.2 h)).trans (if_pos hel)

theorem exec_ftick_of_expired (h : s.forceRemain = 0) (hel : ¬s.elapsed s.lastEval < s.evalPeriod) :
    exec (.ftick t ra rb) s =
      .next { s with power := s.fanWanted t ra rb, lastEval := s.nowMs } :=
  (if_neg (not_not.2 h)).trans (if_neg hel)

end

/-- Settles O37: one case for each branch of FTICK, told apart by FORCE_REMAIN and the elapsed time as a
natural number. -/
theorem ftickThreeCases : Obligations.FtickThreeCases := by
  intro s t ra rb el hel
  rw [← State.toNat_elapsed] at hel
  subst hel
  by_cases hforce : s.forceRemain = 0
  case neg =>
    exact ⟨_, exec_ftick_of_override t ra rb hforce, fun _ => rfl, fun _ => rfl, rfl,
      fun _ => ⟨rfl, rfl⟩, fun h => absurd h hforce, fun h => absurd h hforce⟩
  case pos =>
    by_cases hwait : s.elapsed s.lastEval < s.evalPeriod
    · exact ⟨_, exec_ftick_of_waiting t ra rb hforce hwait, fun _ => rfl, fun _ => rfl, rfl,
        fun h => absurd hforce h, fun _ _ => ⟨rfl, rfl⟩,
        fun _ hle => absurd (BitVec.lt_def.1 hwait) hle.not_gt⟩
    · exact ⟨_, exec_ftick_of_expired t ra rb hforce hwait, fun _ => rfl, fun _ => rfl, rfl,
        fun h => absurd hforce h, fun _ hlt => absurd (BitVec.lt_def.2 hlt) hwait,
        fun _ _ => ⟨rfl, s.fanWanted_iff t ra rb⟩⟩

end Sys2Proof.Machine
end

section
/-! PROOF. The order of the events of one instant (60_exceptions.md): no event is fatal (R240), RESET acts
alone, and otherwise the host's access, the edge and the tick are three single steps (R247). -/

namespace Sys2Proof.Machine

/-! ### No step stops -/

theorem step_of_reset {s : State} {i : Instant} {rest : List Instant} (hin : s.inputs = i :: rest)
    (hreset : i.reset = true) : step s = .next { s with inputs := rest }.resetStep := by
  simp only [step, hin, runInstant, hreset, if_true]

theorem step_of_noHost {s : State} {i : Instant} {rest : List Instant} (hin : s.inputs = i :: rest)
    (hreset : i.reset = false) (hhost : i.host = none) :
    step s = .next ({ s with inputs := rest }.edgeAndTick i) := by
  simp [step, hin, runInstant, hreset, hhost]

/-- Settles O54: waiting, RESET, the edge and the tick are total, and every host access answers a next
state. -/
theorem everyStepGoesOn : Obligations.EveryStepGoesOn := by
  intro s
  cases hin : s.inputs with
  | nil => exact ⟨s, by rw [step, hin]⟩
  | cons i rest =>
    cases hreset : i.reset with
    | true => exact ⟨_, step_of_reset hin hreset⟩
    | false =>
      cases hhost : i.host with
      | none => exact ⟨_, step_of_noHost hin hreset hhost⟩
      | some access =>
        obtain ⟨u, hu, -⟩ := hostStep_effect access { s with inputs := rest }
        exact ⟨_, step_of_hostStep hin hreset hhost hu⟩

/-! ### No access depends on the instants to come -/

/-- What a transition does neither reads nor writes the instants to come (log 3). -/
def ignoresInputs (f : State → Host.Outcome State Fault Refusal) : Prop :=
  ∀ (s t : State) (later : List Instant), f s = .next t →
    f { s with inputs := later } = .next { t with inputs := later }

theorem State.frameValue_inputs (s : State) (later : List Instant) (k n : Nat) :
    { s with inputs := later }.frameValue k n = s.frameValue k n := by
  induction n generalizing k with
  | zero => rfl
  | succ n ih => exact congrArg ((s.frameByte k).toNat + 256 * ·) (ih (k + 1))

theorem exec_ignoresInputs (i : Instr) : ignoresInputs (exec i) := by
  intro s t later h
  cases i with
  | fmt | fverify | fset | ppoll =>
    simp only [exec, execFmt, execFverify, execFset, execPpoll] at h
    split at h
    case isTrue hcond => cases h; exact if_pos hcond
    case isFalse hcond => cases h; exact if_neg hcond
  | fget ty rd field =>
    simp only [exec, execFget, State.frameValue_inputs] at h ⊢
    split at h
    case isTrue hill => cases h; exact if_pos hill
    case isFalse hill => cases h; exact if_neg hill
  | ftick =>
    simp only [exec, execFtick] at h
    split at h
    case isTrue hforce => cases h; exact if_pos hforce
    case isFalse hforce =>
      split at h
      case isTrue hwait => cases h; exact (if_neg hforce).trans (if_pos hwait)
      case isFalse hwait => cases h; exact (if_neg hforce).trans (if_neg hwait)
  | _ => cases h; rfl

theorem runCommand_ignoresInputs (w : Word) : ignoresInputs (runCommand w) := by
  intro s t later h
  cases hdec : decode w with
  | ok i =>
    rw [runCommand_of_decode hdec] at h ⊢
    exact exec_ignoresInputs i { s with cmdWord := w } t later h
  | error r =>
    rw [runCommand, hdec] at h ⊢
    cases h
    rfl

theorem State.writeStatus_inputs (s : State) (later : List Instant) (v : Word) :
    { s with inputs := later }.writeStatus v = { s.writeStatus v with inputs := later } := by
  unfold State.writeStatus
  split <;> rfl

theorem State.writeCtrl_inputs (s : State) (later : List Instant) (v : Word) :
    { s with inputs := later }.writeCtrl v = { s.writeCtrl v with inputs := later } := by
  unfold State.writeCtrl
  split <;> rfl

theorem State.writeLane_inputs (s : State) (later : List Instant) (k : Nat) (v : Byte)
    (enabled : Bool) :
    { s with inputs := later }.writeLane k v enabled =
      { s.writeLane k v enabled with inputs := later } := by
  simp only [State.writeLane]
  by_cases hk : enabled = true ∧ k < s.frameLen
  · rw [if_pos hk]; exact if_pos hk
  · rw [if_neg hk]; exact if_neg hk

theorem State.writeFrameWord_inputs (s : State) (later : List Instant) (q : Nat) (v : Word)
    (be : BitVec 4) :
    { s with inputs := later }.writeFrameWord q v be =
      { s.writeFrameWord q v be with inputs := later } := by
  simp only [State.writeFrameWord, State.writeLane_inputs]

theorem writeReg_ignoresInputs (r : HostReg) (data : Word) (be : BitVec 4) :
    ignoresInputs (·.writeReg r data be) := by
  intro s t later h
  cases r with
  | cmd => exact runCommand_ignoresInputs data s t later h
  | status => cases h; exact congrArg _ (s.writeStatus_inputs later data)
  | ctrl => cases h; exact congrArg _ (s.writeCtrl_inputs later data)
  | frame q => cases h; exact congrArg _ (s.writeFrameWord_inputs later q.val data be)
  | _ => cases h; rfl

theorem hostStep_ignoresInputs (access : HostAccess) : ignoresInputs (hostStep access) := by
  intro s t later h
  cases access with
  | read addr =>
    cases h
    simp only [hostStep, State.hostRead_inputs]
  | write addr data be =>
    simp only [hostStep, State.hostWrite] at h ⊢
    split at h
    case isTrue hbe => rw [if_pos hbe]; exact writeReg_ignoresInputs _ data be s t later h
    case isFalse hbe => rw [if_neg hbe]; cases h; rfl

/-! ### One instant as three -/

/-- Outside RESET a step is the host's access and then the edge and the tick, and what the access leaves
does not depend on them or on the instants to come. -/
theorem step_host_first (s : State) (h : Option HostAccess) :
    ∃ u : State, ∀ (e : Option Bool) (k : Bool) (rest : List Instant),
      step { s with inputs := ⟨false, h, e, k⟩ :: rest } =
        .next ({ u with inputs := rest }.edgeAndTick ⟨false, h, e, k⟩) := by
  cases h with
  | none => exact ⟨s, fun e k rest => step_of_noHost rfl rfl rfl⟩
  | some access =>
    obtain ⟨u, hu, -⟩ := hostStep_effect access s
    exact ⟨u, fun e k rest =>
      step_of_hostStep rfl rfl rfl (hostStep_ignoresInputs access s u rest hu)⟩

/-- Settles O44: RESET looks at nothing else of its instant; the edge and the tick, alone in their
instants, do after the host's access what they do in its instant. -/
theorem coincidentStepsInterleave : Obligations.CoincidentStepsInterleave := by
  refine ⟨fun s h e k rest => ?reset, fun s h e k rest => ?ordered⟩
  case reset => exact (step_of_reset rfl rfl).trans (step_of_reset rfl rfl).symm
  case ordered =>
    obtain ⟨u, hstep⟩ := step_host_first s h
    refine ⟨_, hstep e k rest, ?_⟩
    rw [runSteps_succ (hstep none false _)]
    cases e <;> rfl

end Sys2Proof.Machine
end

section
/-! PROOF. The one exception, IllegalCommand (60_exceptions.md): the six items of R97 call a word illegal
exactly where the decoder or its command's own check rejects it (R241), and what STATUS.ILL and ERRCMD do
until the host acknowledges (R250). -/

namespace Sys2Proof

/-! ### The codes of a type and of a field, read back -/

theorem IntTy.ofCode_eq_none_iff (b : BitVec 3) :
    IntTy.ofCode b = none ↔ b.toNat = 6 ∨ b.toNat = 7 := by
  revert b; decide

theorem IntTy.code_of_ofCode {b : BitVec 3} {i : IntTy} (h : IntTy.ofCode b = some i) :
    b = i.code := by
  revert b i; decide

theorem Decimals.bit_ofBit (b : BitVec 1) : (Decimals.ofBit b).bit = b := by
  revert b; decide

theorem Field.ofIndex_eq_none_iff (b : BitVec 5) : Field.ofIndex b = none ↔ 7 < b.toNat := by
  revert b; decide

theorem Field.index_of_ofIndex {b : BitVec 5} {f : Field} (h : Field.ofIndex b = some f) :
    b = f.index := by
  revert b f; decide

theorem Field.index_eq_four_iff (f : Field) : f.index.toNat = 4 ↔ f = .cond := by
  cases f <;> decide

theorem FxTy.eq_of_codes {t u : FxTy} (hty : t.int.code.toNat = u.int.code.toNat)
    (hdec : t.dec.bit.toNat = u.dec.bit.toNat) : t = u := by
  obtain ⟨i, d⟩ := t
  obtain ⟨j, e⟩ := u
  have hint : i = j := by
    rw [← Option.some_inj, ← i.ofCode_code, ← j.ofCode_code, BitVec.eq_of_toNat_eq hty]
  have hscale : d = e := by
    rw [← d.ofBit_bit, ← e.ofBit_bit, BitVec.eq_of_toNat_eq hdec]
  rw [hint, hscale]

/-- The list of R167 names a field's own type by its codes. -/
theorem fieldTypeCodes_index (f : Field) :
    fieldTypeCodes[f.index.toNat]? = some (f.ty.int.code.toNat, f.ty.dec.bit.toNat) := by
  cases f <;> rfl

theorem fieldTypeCodes_ne_iff (f : Field) (t : FxTy) :
    fieldTypeCodes[f.index.toNat]? ≠ some (t.int.code.toNat, t.dec.bit.toNat) ↔ t ≠ f.ty := by
  rw [fieldTypeCodes_index, not_iff_not]
  refine ⟨fun h => ?_, fun h => by rw [h]⟩
  obtain ⟨hty, hdec⟩ := Prod.mk.inj (Option.some.inj h)
  exact FxTy.eq_of_codes hty.symm hdec.symm

/-! ### The fields of a packed word -/

namespace CmdFields
variable (f : CmdFields)

theorem toWord_op : f.toWord.extractLsb' 24 8 = f.op := congrArg op f.ofWord_toWord

theorem toWord_ty : f.toWord.extractLsb' 6 3 = f.ty := congrArg ty f.ofWord_toWord

theorem toWord_dec : f.toWord.extractLsb' 5 1 = f.dec := congrArg dec f.ofWord_toWord

theorem toWord_imm5 : f.toWord.extractLsb' 0 5 = f.imm5 := congrArg imm5 f.ofWord_toWord

end CmdFields

namespace Machine

/-! ### The words that R97 calls illegal -/

/-- The command's own legality check fails: FMT's width (R146), or the field or its type (R166, R169). -/
def State.refuses (s : State) : Instr → Bool
  | .fmt _ _ width _ _ => decide (16 < width.val)
  | .fset t field _ => s.fieldIllegal t field
  | .fget t _ field => s.fieldIllegal t field
  | _ => false

/-- The decoder rejects the word, or its command's own check does (log 7). -/
def State.rejects (s : State) : Except IllegalReason Instr → Bool
  | .ok i => s.refuses i
  | .error _ => true

/-- TY is reserved: item 2 of R97. -/
def reservedTy (f : CmdFields) : Bool := f.ty.toNat == 6 || f.ty.toNat == 7

/-- A typed command is rejected for a reserved TY, or for what its own check says of the type. -/
theorem State.rejects_typed (s : State) {f : CmdFields} {k : FxTy → Except IllegalReason Instr}
    {bad : Bool}
    (hk : ∀ t : FxTy, f.ty = t.int.code → f.dec = t.dec.bit → s.rejects (k t) = bad) :
    s.rejects (typed f k) = (reservedTy f || bad) := by
  unfold typed reservedTy
  cases hty : IntTy.ofCode f.ty with
  | none => rcases (IntTy.ofCode_eq_none_iff _).1 hty with h | h <;> simp [h, State.rejects]
  | some i =>
    have hlegal := (IntTy.ofCode_eq_none_iff f.ty).not.1 (by simp [hty])
    have hbad := hk ⟨i, Decimals.ofBit f.dec⟩ (IntTy.code_of_ofCode hty) (Decimals.bit_ofBit _).symm
    simp [not_or.1 hlegal, hbad]

theorem State.rejects_decodeXF (s : State) (f : CmdFields) :
    s.rejects (decodeXF f) = (reservedTy f || decide (16 < f.imm5.toNat)) := by
  refine s.rejects_typed fun t _ _ => ?_
  by_cases h : 16 < f.imm5.toNat
  · simp [h, State.rejects]
  · simp [h, State.rejects, State.refuses]

/-- Items 4, 5 and 6 of R97 are the rejections of FSET and FGET after a legal TY. -/
theorem State.rejects_decodeField (s : State) (f : CmdFields) {mk : FxTy → Field → Instr}
    (hmk : ∀ t field, s.refuses (mk t field) = s.fieldIllegal t field) :
    s.rejects (decodeField mk f) =
      (reservedTy f || (decide (7 < f.imm5.toNat) || (f.imm5.toNat == 4 && !s.condEn) ||
        fieldTypeCodes[f.imm5.toNat]? != some (f.ty.toNat, f.dec.toNat))) := by
  refine s.rejects_typed fun t hty hdec => ?_
  cases hidx : Field.ofIndex f.imm5 with
  | none => simp [(Field.ofIndex_eq_none_iff _).1 hidx, State.rejects]
  | some field =>
    have hlegal : ¬7 < f.imm5.toNat := (Field.ofIndex_eq_none_iff _).not.1 (by simp [hidx])
    rw [Bool.eq_iff_iff, State.rejects, hmk, State.fieldIllegal_iff]
    rw [Field.index_of_ofIndex hidx] at hlegal ⊢
    simp [hlegal, hty, hdec, fieldTypeCodes_ne_iff, Field.index_eq_four_iff]

/-- The rule R97, written from the bit positions, rejects what the decoder and the commands' own checks
reject: by opcode, no check, TY alone, and TY with FMT's or the frame field's own. -/
theorem illegalWord_toWord (s : State) (f : CmdFields) :
    illegalWord s.condEn f.toWord = s.rejects (decodeFields f) := by
  simp only [illegalWord, CmdFields.toWord_op, CmdFields.toWord_ty, CmdFields.toWord_dec,
    CmdFields.toWord_imm5]
  unfold decodeFields
  generalize f.op.toNat = op
  split
  case h_1 | h_17 | h_18 | h_19 | h_22 | h_23 | h_26 => rfl
  case h_16 =>
    rw [s.rejects_decodeXF]
    simp [assignedOpcodes, untypedOpcodes, reservedTy]
  case h_20 | h_21 =>
    rw [s.rejects_decodeField _ fun _ _ => rfl]
    simp [assignedOpcodes, untypedOpcodes, reservedTy, Bool.or_assoc]
  case h_27 => simp_all [assignedOpcodes, State.rejects]
  case h_2 | h_3 | h_4 | h_5 | h_6 | h_7 | h_8 | h_9 | h_10 | h_11 | h_12 | h_13 | h_14 | h_15 | h_24
    | h_25 =>
    refine Eq.trans ?_ (s.rejects_typed (bad := false) fun _ _ _ => rfl).symm
    simp [assignedOpcodes, untypedOpcodes, reservedTy]

theorem illegalWord_eq_rejects (s : State) (w : Word) :
    illegalWord s.condEn w = s.rejects (decode w) := by
  rw [decode, ← illegalWord_toWord, CmdFields.toWord_ofWord]

/-! ### What a command does to ILL and ERRCMD -/

/-- STATUS.ILL and ERRCMD, the state of the exception (R241), are the same in both states. -/
def sameException (s t : State) : Prop := t.ill = s.ill ∧ t.errCmd = s.errCmd

theorem sameException.refl (s : State) : sameException s s := ⟨rfl, rfl⟩

theorem exec_of_refuses {i : Instr} {s : State} (h : s.refuses i = true) :
    exec i s = .next s.raiseIllegal := by
  cases i with
  | fmt t ra width left plus => exact exec_fmt_of_gt (of_decide_eq_true h) ra left plus
  | fset t field ra => exact exec_fset_of_illegal h ra
  | fget t rd field => exact exec_fget_of_illegal h rd
  | _ => cases h

/-- A command that its own check accepts answers, and leaves the exception's state. -/
theorem exec_of_accepts {i : Instr} {s : State} (h : s.refuses i = false) :
    ∃ t, exec i s = .next t ∧ sameException s t := by
  cases i with
  | fmt t ra width left plus =>
    exact ⟨_, exec_fmt_of_le (Nat.not_lt.1 (of_decide_eq_false h)) ra left plus, .refl s⟩
  | fset t field ra => exact ⟨_, exec_fset_of_legal h ra, .refl s⟩
  | fget t rd field => exact ⟨_, exec_fget_of_legal h rd, .refl s⟩
  | fverify rd =>
    by_cases hcrc : s.frameCrc = s.frameByte (s.frameLen - 1)
    · exact ⟨_, exec_fverify_of_eq hcrc rd, .refl s⟩
    · exact ⟨_, exec_fverify_of_ne hcrc rd, .refl s⟩
  | ppoll rd =>
    by_cases hpoll : s.noNewSample
    · exact ⟨_, exec_ppoll_of_noNewSample hpoll rd, .refl s⟩
    · exact ⟨_, exec_ppoll_of_newSample hpoll rd, .refl s⟩
  | ftick t ra rb =>
    by_cases hforce : s.forceRemain = 0
    case neg => exact ⟨_, exec_ftick_of_override t ra rb hforce, .refl s⟩
    case pos =>
      by_cases hwait : s.elapsed s.lastEval < s.evalPeriod
      · exact ⟨_, exec_ftick_of_waiting t ra rb hforce hwait, .refl s⟩
      · exact ⟨_, exec_ftick_of_expired t ra rb hforce hwait, .refl s⟩
  | _ => exact ⟨_, rfl, .refl s⟩

theorem runCommand_of_illegal {s : State} {w : Word} (h : illegalWord s.condEn w = true) :
    runCommand w s = .next { s with cmdWord := w }.raiseIllegal := by
  rw [illegalWord_eq_rejects] at h
  cases hdec : decode w with
  | error r => rw [runCommand, hdec]
  | ok i =>
    rw [hdec] at h
    exact (runCommand_of_decode hdec s).trans (exec_of_refuses (s := { s with cmdWord := w }) h)

theorem legal_word_answers {s : State} {w : Word} (h : illegalWord s.condEn w = false) :
    ∃ i t, decode w = .ok i ∧ exec i { s with cmdWord := w } = .next t ∧ sameException s t := by
  rw [illegalWord_eq_rejects] at h
  cases hdec : decode w with
  | error r => rw [hdec] at h; cases h
  | ok i =>
    rw [hdec] at h
    obtain ⟨t, ht, hsame⟩ := exec_of_accepts (s := { s with cmdWord := w }) h
    exact ⟨i, t, rfl, ht, hsame⟩

/-- Settles O3: an illegal word is one that the decoder or its command's check rejects, and both raise the
exception; every other word's command leaves ILL and ERRCMD. -/
theorem illegalCommandExactly : Obligations.IllegalCommandExactly := by
  refine fun s w => ⟨fun h => runCommand_of_illegal h, fun h => ?_⟩
  obtain ⟨i, t, hdec, hexec, hill, herr⟩ := legal_word_answers h
  exact ⟨i, t, hdec, (runCommand_of_decode hdec s).trans hexec, hexec, hill, herr⟩

theorem runCommand_sameException {s t : State} {w : Word} (hw : illegalWord s.condEn w = false)
    (h : runCommand w s = .next t) : sameException s t := by
  obtain ⟨i, u, hdec, hexec, hsame⟩ := legal_word_answers hw
  rw [runCommand_of_decode hdec, hexec] at h
  cases h
  exact hsame

/-! ### What a step does to ILL and ERRCMD -/

/-- An illegal word sets ILL and a legal one leaves it (R241), so a command never clears it. -/
theorem runCommand_keeps_ill {w : Word} {s t : State} (h : runCommand w s = .next t)
    (hill : s.ill = true) : t.ill = true := by
  cases hw : illegalWord s.condEn w with
  | true => rw [runCommand_of_illegal hw] at h; cases h; rfl
  | false => exact (runCommand_sameException hw h).1.trans hill

theorem writeReg_sameException {s t : State} {r : HostReg} {data : Word} {be : BitVec 4}
    (h : s.writeReg r data be = .next t) (hcmd : r ≠ .cmd) (hstatus : r ≠ .status) :
    sameException s t := by
  cases r with
  | cmd => exact absurd rfl hcmd
  | status => exact absurd rfl hstatus
  | ctrl =>
    cases h
    unfold State.writeCtrl
    split <;> exact .refl s
  | frame q =>
    cases h
    exact State.writeFrameWord_keeps (P := sameException s) (fun _ _ _ _ => id) q.val data be (.refl s)
  | _ => cases h; exact .refl s

/-- What the host's part of an instant can do to ILL and ERRCMD: only a full write of CMD or of STATUS
touches them (R27, R69, R90). -/
inductive ExceptionEffect (host : Option HostAccess) (s t : State) : Prop where
  | command (a : BitVec 8) (w : Word) (hhost : host = some (.write a w 0xF)) (hreg : hostReg a = .cmd)
    (hrun : runCommand w s = .next t)
  | statusWrite (a : BitVec 8) (v : Word) (hhost : host = some (.write a v 0xF))
    (hreg : hostReg a = .status) (hwrite : t = s.writeStatus v)
  | leaves (hsame : sameException s t)

theorem hostStep_exceptionEffect {access : HostAccess} {s t : State}
    (h : hostStep access s = .next t) : ExceptionEffect (some access) s t := by
  cases access with
  | read addr => cases h; exact .leaves (.refl s)
  | write addr data be =>
    simp only [hostStep, State.hostWrite] at h
    split at h
    case isFalse => cases h; exact .leaves (.refl s)
    case isTrue hbe =>
      have hfull (hword : (hostReg addr).isFrame = false) : be = 0xF := by simpa [hword] using hbe
      by_cases hcmd : hostReg addr = .cmd
      · rw [hcmd] at h hfull
        exact .command addr data (by rw [hfull rfl]) hcmd h
      by_cases hstatus : hostReg addr = .status
      · rw [hstatus] at h hfull
        cases h
        exact .statusWrite addr data (by rw [hfull rfl]) hstatus rfl
      · exact .leaves (writeReg_sameException h hcmd hstatus)

/-- Outside RESET a step touches ILL and ERRCMD only in its host access: the edge and the tick leave
them. -/
theorem step_exceptionEffect {s t : State} {i : Instant} {rest : List Instant}
    (hin : s.inputs = i :: rest) (h : step s = .next t) (hreset : i.reset = false) :
    ∃ u, ExceptionEffect i.host { s with inputs := rest } u ∧ sameException u t := by
  obtain ⟨u, rfl, hhost⟩ := step_without_reset hin hreset h
  refine ⟨u, ?host, ?timers⟩
  case host =>
    obtain ⟨-, rfl⟩ | ⟨access, haccess, hu⟩ := hhost
    · exact .leaves (.refl s)
    · exact haccess ▸ hostStep_exceptionEffect hu
  case timers =>
    obtain ⟨_, _, _, _, _, htimers⟩ := u.edgeAndTick_changesOnlyTimers i
    rw [htimers]
    exact .refl u

theorem State.writeStatus_of_bit_clear (s : State) {v : Word} (h : v.getLsbD 8 = false) :
    s.writeStatus v = s :=
  if_neg (by rw [h]; decide)

@[simp] theorem State.writeStatus_errCmd (s : State) (v : Word) :
    (s.writeStatus v).errCmd = s.errCmd := by
  unfold State.writeStatus
  split <;> rfl

/-- Settles O4: of the host's accesses only a full write of STATUS with bit 8 set clears ILL, and only an
illegal command writes ERRCMD. -/
theorem illStaysUntilCleared : Obligations.IllStaysUntilCleared := by
  refine ⟨fun s t i rest hin h hill hreset hno => ?stays, fun s v hv => ?cleared,
    fun s w _ hw => ⟨_, runCommand_of_illegal hw, rfl, rfl⟩,
    fun s t i rest hin h hreset hno => ?errCmd⟩
  case stays =>
    obtain ⟨u, heffect, hsame⟩ := step_exceptionEffect hin h hreset
    refine hsame.1.trans ?_
    cases heffect with
    | command a w hhost hreg hrun =>
      exact runCommand_keeps_ill (s := { s with inputs := rest }) hrun hill
    | statusWrite a v hhost hreg hwrite =>
      rw [hwrite, State.writeStatus_of_bit_clear _ (hno a v hhost hreg)]
      exact hill
    | leaves hu => exact hu.1.trans hill
  case cleared => rw [statusWriteClearsIll s v, hv, Bool.not_true, Bool.and_false]
  case errCmd =>
    obtain ⟨u, heffect, hsame⟩ := step_exceptionEffect hin h hreset
    refine hsame.2.trans ?_
    cases heffect with
    | command a w hhost hreg hrun =>
      exact (runCommand_sameException (s := { s with inputs := rest }) (hno a w hhost hreg) hrun).2
    | statusWrite a v hhost hreg hwrite => rw [hwrite, State.writeStatus_errCmd]
    | leaves hu => exact hu.2

end Machine

end Sys2Proof
end

section
/-! PROOF. Reset (70_reset_and_hazards.md R260): the byte arrays RESET leaves, the values a step with RESET
leaves in every element that has a reset value, and that the state after reset is safe. -/

namespace Sys2Proof.Machine

/-! ### The byte arrays after RESET -/

/-- FRAME after RESET, as numbers: the cleared frame of the 15-byte layout and a 0x00 after it (R66). -/
theorem State.frameHolds_resetStep (s : State) :
    frameHolds s.resetStep [0x00, 0x80, 0x80, 0x00, 0x80, 0x80, 0x00, 0x00, 0x80, 0x00, 0x00, 0x00, 0x00,
      0x80, 0xB4, 0x00] := by
  intro k _
  rw [s.frameByte_resetStep, clearedFrame_bytes, if_pos rfl]

/-- FMTBUF after RESET: the text is empty, so all sixteen bytes stand after it. -/
theorem State.fmtByte_resetStep (s : State) (k : Nat) (hk : k < 16) : s.resetStep.fmtByte k = 0 := by
  obtain ⟨⟨-, hzero⟩, -⟩ := s.textRateInv_resetStep
  exact hzero k (Nat.zero_le k) hk

/-! ### A step with RESET -/

/-- Settles O45: RESET acts alone (R247) and loads the fields of the reset state; the byte arrays are read
through their reset contents. -/
theorem resetStepSetsResetValues : Obligations.ResetStepSetsResetValues := by
  intro s i rest hin hreset
  refine ⟨{ s with inputs := rest }.resetStep, step_of_reset hin hreset, ?_⟩
  exact ⟨rfl, rfl, rfl, rfl, rfl, rfl, rfl, rfl, rfl, rfl, rfl, rfl, rfl, rfl, rfl, rfl, rfl, rfl, rfl,
    rfl, rfl, rfl, State.fmtByte_resetStep _, State.frameHolds_resetStep _⟩

/-! ### The state after reset -/

/-- RESET leaves a safe state, whatever it finds and whatever R0..R7 then hold (R261). -/
theorem State.safe_resetStep (s : State) : s.resetStep.safe := by
  obtain ⟨hseal, htail⟩ := s.frameInv_resetStep
  obtain ⟨htext, hrate⟩ := s.textRateInv_resetStep
  exact ⟨State.wf_reset, s.forceInv_resetStep, hseal, htail, htext, hrate⟩

/-- Safety reads neither R0..R7 nor the model's own fields, all in which the two states differ. -/
theorem State.safe_resetStep_iff (s : State) : s.resetStep.safe ↔ State.reset.safe := Iff.rfl

/-- Settles O60: a RESET leaves a safe state, and safety does not see how that one differs from the
reset state. -/
theorem resetStateIsSafe : Obligations.ResetStateIsSafe :=
  (State.safe_resetStep_iff State.reset).1 State.reset.safe_resetStep

end Sys2Proof.Machine
end
